-- ==== Sys2Proof/Word.lean ====
section
/-!
DEFINITION. The words of the machine (spec/00_scope.md R7, spec/10_state.md R21, R27): every register, address,
memory cell and the program counter is one unsigned byte.
-/

namespace Sys2Proof

/-- An 8-bit unsigned value 0..255 (R7): a register's content, an address, a memory cell, an instruction byte. -/
abbrev Byte := BitVec 8

/-- The number of a general register, 0..7 (R21). An operand byte above 7 names no register (R25). -/
abbrev RegIdx := Fin 8

end Sys2Proof
end

