-- ==== Sys2Proof/Config.lean ====
section
/-!
DEFINITION. The implementation parameters of spec/00_scope.md R5, each at the value that rule gives it, and the one
value the model chooses itself: what a byte of memory that nothing has written reads as.
-/

namespace Sys2Proof.Config

/-- `MEMSIZE`: bytes of memory (R5, R62; the spec's decision D1, log entry 3). -/
def memSize : Nat := 256

/-- `NREG`: number of general registers (R5, R21). -/
def nreg : Nat := 8

/-- `SP_INDEX`: the register used as the stack pointer (R5, R22). -/
def spIdx : RegIdx := 7

/-- `SP_RESET`: reset value of register 7 (R5, R22). -/
def spReset : Byte := 244#8

/-- `PC_RESET`: reset value of the program counter (R5, R27). -/
def pcReset : Byte := 0#8

/-- `LOAD_BASE`: address of the first program byte (R5, R132). -/
def loadBase : Byte := 0#8

/-- `REG_RESET`: reset value of registers 0 to 6 (R5, R40; the spec's decision D4, log entry 1). -/
def regReset : Byte := 0#8

/-- `FLAG_RESET`: reset value of each of E, L, G (R5, R40; the spec's decision D5, log entry 2). -/
def flagReset : Bool := false

/-- `RET_POPS_SP`: whether RET also increments SP (R5, R214). Normative value: false. -/
def retPopsSp : Bool := false

/-- DESIGN CHOICE (log entry 4): what an address reads as that `State.reset`'s memory does not list. The spec leaves
`MEM_INIT` open (R75); a machine with another image is `State.powerOn` of that image. -/
def unlistedByte : Byte := 0#8

end Sys2Proof.Config
end

