-- ==== Sys2Proof/Syntax.lean ====
section
/-!
DEFINITION. The instruction set: one constructor per row of spec/opcode_table.json (spec/30_encoding.md R94). An operand
is the whole operand byte as fetched (R93): the byte is not masked, and an index above 7 is part of the syntax, because
the spec gives such a form an effect of its own (BAD_REG_INDEX, R25, R124).
-/

namespace Sys2Proof

/-- The 13 instructions of R94. `opA` and `opB` are the bytes at `pc + 1` and `pc + 2` (R92). -/
inductive Instr where
  /-- `LDI R[opA], opB` (R150): `opA` register index, `opB` immediate. -/
  | ldi (opA opB : Byte)
  /-- `PRN R[opA]` (R151): `opA` register index. -/
  | prn (opA : Byte)
  /-- `HLT` (R160). -/
  | hlt
  /-- `MUL R[opA], R[opB]` (R171): two register indices. -/
  | mul (opA opB : Byte)
  /-- `ADD R[opA], R[opB]` (R172): two register indices. -/
  | add (opA opB : Byte)
  /-- `CMP R[opA], R[opB]` (R173): two register indices. -/
  | cmp (opA opB : Byte)
  /-- `JMP R[opA]` (R190): `opA` register index. -/
  | jmp (opA : Byte)
  /-- `JEQ R[opA]` (R191): `opA` register index. -/
  | jeq (opA : Byte)
  /-- `JNE R[opA]` (R192): `opA` register index. -/
  | jne (opA : Byte)
  /-- `PUSH R[opA]` (R200): `opA` register index. -/
  | push (opA : Byte)
  /-- `POP R[opA]` (R201): `opA` register index. -/
  | pop (opA : Byte)
  /-- `CALL R[opA]` (R210): `opA` register index. -/
  | call (opA : Byte)
  /-- `RET` (R211). -/
  | ret
  deriving DecidableEq, Repr

end Sys2Proof
end

