-- ==== Sys2Proof/Machine/State.lean ====
section
/-!
DEFINITION. The complete state of the machine (spec/10_state.md R20: "and nothing else is state"), why a step could stop,
and the state after reset (R40). Plain data only.
-/

namespace Sys2Proof.Machine

/-- The register file (R21): 8 independent 8-bit cells, one bank, none hard-wired. `r7` is the stack pointer (R22). -/
structure RegFile where
  r0 : Byte
  r1 : Byte
  r2 : Byte
  r3 : Byte
  r4 : Byte
  r5 : Byte
  r6 : Byte
  r7 : Byte
  deriving DecidableEq, Repr

/-- The three flags (R30): three separate bits, no packed layout. -/
structure Flags where
  /-- Equal. -/
  e : Bool
  /-- Less-than. -/
  l : Bool
  /-- Greater-than. -/
  g : Bool
  deriving DecidableEq, Repr

/-- The run state (R33). -/
inductive RunState where
  | running
  | halted
  deriving DecidableEq, Repr

/-- `halt_cause` (R34): the five codes that are ever written. Its 3-bit encoding is `HaltCause.code`. -/
inductive HaltCause where
  /-- Code 0: the machine is RUNNING; no halt since reset. -/
  | none
  /-- Code 1: halted by the HLT instruction. -/
  | hlt
  /-- Code 2: the opcode byte matched no row of the opcode table. -/
  | unknownOpcode
  /-- Code 3: the ALU was given an operation outside ADD, MUL, CMP. -/
  | unknownAluOp
  /-- Code 4: an operand byte used as a register index was greater than 7. -/
  | badRegIndex
  deriving DecidableEq, Repr

/-- The memory (R60): address and byte pairs, addresses strictly rising, no pair holding what an unlisted address reads as
(`Config.unlistedByte`, log entry 4). The form is `Memory.wf`. -/
abbrev Memory := List Host.Cell

/-- The machine's state: every row of R20's table. -/
structure State where
  /-- `x[0]` .. `x[7]` (R21, R22). -/
  regs : RegFile
  /-- `pc` (R27, R28): between steps, the address of the next opcode byte. -/
  pc : Byte
  /-- `E`, `L`, `G` (R30). -/
  flags : Flags
  /-- `run` (R33). -/
  run : RunState
  /-- `halt_cause` (R34). -/
  haltCause : HaltCause
  /-- `diag_addr` (R35): address of the opcode byte that took a fatal condition. -/
  diagAddr : Byte
  /-- `diag_opcode` (R35): that opcode byte. -/
  diagOpcode : Byte
  /-- `Mem[0..255]` (R60, R62): external to the block, owned by the host. -/
  mem : Memory
  /-- `out` (R39): the bytes PRN has emitted, oldest first. -/
  out : List Byte
  deriving DecidableEq, Repr

/-- Why a step could stop without a next state: never. Every fatal condition of the spec is an entry to HALTED that R226
describes, so it is a next state, and no memory or register access faults (R61, R24). Raised by nobody; safe. -/
inductive Fault
  deriving DecidableEq, Repr

/-- Why an instruction could be refused. -/
inductive Refusal where
  /-- The instruction named has no meaning in `exec` yet. No arm of `exec` raises it: all 13 have their meaning. Safe. -/
  | notModelled (mnemonic : String)
  deriving DecidableEq, Repr

/-- How a step or an instruction ends. -/
abbrev Result := Host.Outcome State Fault Refusal

/-- The machine right after reset (R40, R250), with a memory that lists nothing. Log entries 1, 2, 4 name the values the
source does not give: registers 0 to 6, the flags, unwritten memory. -/
def State.reset : State where
  regs :=
    { r0 := Config.regReset, r1 := Config.regReset, r2 := Config.regReset, r3 := Config.regReset,
      r4 := Config.regReset, r5 := Config.regReset, r6 := Config.regReset, r7 := Config.spReset }
  pc := Config.pcReset
  flags := { e := Config.flagReset, l := Config.flagReset, g := Config.flagReset }
  run := .running
  haltCause := .none
  diagAddr := 0#8
  diagOpcode := 0#8
  mem := []
  out := []

end Sys2Proof.Machine
end

