-- ==== Sys2Proof/Machine/Flags.lean ====
section
/-!
DEFINITION. The flag computation of the machine, CMP's (spec/43_alu.md R173). No other instruction computes a flag
(spec/10_state.md R31).
-/

namespace Sys2Proof.Machine

/-- E, L, G of comparing `va` with `vb` as unsigned numbers: E iff equal, L iff `va < vb`, G iff `va > vb` (R173; which of L
and G goes with which order is the spec's decision D6, log entry 8). -/
def compareFlags (va vb : Byte) : Flags where
  e := decide (va.toNat = vb.toNat)
  l := decide (va.toNat < vb.toNat)
  g := decide (va.toNat > vb.toNat)

end Sys2Proof.Machine
end

