-- ==== Sys2Proof/WellFormed.lean ====
section
/-!
DEFINITION. The operand check of spec/30_encoding.md R93 and spec/40_instruction_cycle.md R124 on the syntax: every
operand byte used as a register index is 0..7. An instruction that fails it is still executed: it takes BAD_REG_INDEX.
-/

namespace Sys2Proof

/-- The operand byte, as an unsigned number, is a register index (R25, R93). It is neither masked nor clamped. -/
def isRegByte (b : Byte) : Bool := decide (b.toNat < Config.nreg)

/-- Every register-index operand of the instruction is 0..7 (R93's table of operand kinds). HLT and RET have none,
LDI's `opB` is an immediate and is never checked (R124). -/
def Instr.wf : Instr → Bool
  | .ldi opA _ => isRegByte opA
  | .prn opA => isRegByte opA
  | .hlt => true
  | .mul opA opB => isRegByte opA && isRegByte opB
  | .add opA opB => isRegByte opA && isRegByte opB
  | .cmp opA opB => isRegByte opA && isRegByte opB
  | .jmp opA => isRegByte opA
  | .jeq opA => isRegByte opA
  | .jne opA => isRegByte opA
  | .push opA => isRegByte opA
  | .pop opA => isRegByte opA
  | .call opA => isRegByte opA
  | .ret => true

/-- A well-formed instruction: one whose register-index operands all name a register. -/
abbrev Instr.WellFormed (i : Instr) : Prop := i.wf = true

end Sys2Proof
end

