-- ==== Sys2Proof/Decode.lean ====
section
/-!
DEFINITION. The instruction decoder and the encoder (spec/30_encoding.md R90 to R99, spec/40_instruction_cycle.md R122,
R123), both read off the opcode map of R94, and the view of them by spec/opcode_table.json's bit numbering.
-/

namespace Sys2Proof

/-- The three bytes the fetch unit reads in every step (R122), at `pc`, `pc + 1`, `pc + 2`. -/
structure Fetched where
  opcode : Byte
  opA : Byte
  opB : Byte
  deriving DecidableEq, Repr

/-- The fetched bytes in ascending address order. -/
def Fetched.bytes (f : Fetched) : List Byte := [f.opcode, f.opA, f.opB]

/-- The first three bytes of a list, a missing one taken as 0. -/
def Fetched.ofBytes (bs : List Byte) : Fetched :=
  { opcode := bs.getD 0 0#8, opA := bs.getD 1 0#8, opB := bs.getD 2 0#8 }

/-- Why a byte sequence is no instruction. -/
inductive DecodeError where
  /-- The opcode byte is none of the 13 of R94 (R96). Raised by `decode`. -/
  | unknownOpcode (opcode : Byte)
  deriving DecidableEq, Repr

/-! The opcode bytes of R94, in the spec's binary. -/

def opLdi : Byte := 0b10011001#8
def opPrn : Byte := 0b01000011#8
def opHlt : Byte := 0b00000001#8
def opMul : Byte := 0b10101010#8
def opAdd : Byte := 0b10101000#8
def opCmp : Byte := 0b10100000#8
def opJmp : Byte := 0b01010000#8
def opJeq : Byte := 0b01010001#8
def opJne : Byte := 0b01010010#8
def opPush : Byte := 0b01001101#8
def opPop : Byte := 0b01001100#8
def opCall : Byte := 0b01001000#8
def opRet : Byte := 0b00001001#8

/-- The 13 opcode bytes, in R94's order. -/
def opcodeBytes : List Byte :=
  [opLdi, opPrn, opHlt, opMul, opAdd, opCmp, opJmp, opJeq, opJne, opPush, opPop, opCall, opRet]

/-- The opcode byte of an instruction (R94). -/
def Instr.opcode : Instr → Byte
  | .ldi _ _ => opLdi
  | .prn _ => opPrn
  | .hlt => opHlt
  | .mul _ _ => opMul
  | .add _ _ => opAdd
  | .cmp _ _ => opCmp
  | .jmp _ => opJmp
  | .jeq _ => opJeq
  | .jne _ => opJne
  | .push _ => opPush
  | .pop _ => opPop
  | .call _ => opCall
  | .ret => opRet

/-- `operand_count` = `opcode[7:6]` = `opcode >> 6` (R91). -/
def operandCount (opcode : Byte) : Nat := (opcode >>> 6).toNat

/-- `decode` of R123: the whole opcode byte is compared with the 13 of R94; no operand byte is looked at (R99). -/
def decode (f : Fetched) : Except DecodeError Instr :=
  if f.opcode = opLdi then .ok (.ldi f.opA f.opB)
  else if f.opcode = opPrn then .ok (.prn f.opA)
  else if f.opcode = opHlt then .ok .hlt
  else if f.opcode = opMul then .ok (.mul f.opA f.opB)
  else if f.opcode = opAdd then .ok (.add f.opA f.opB)
  else if f.opcode = opCmp then .ok (.cmp f.opA f.opB)
  else if f.opcode = opJmp then .ok (.jmp f.opA)
  else if f.opcode = opJeq then .ok (.jeq f.opA)
  else if f.opcode = opJne then .ok (.jne f.opA)
  else if f.opcode = opPush then .ok (.push f.opA)
  else if f.opcode = opPop then .ok (.pop f.opA)
  else if f.opcode = opCall then .ok (.call f.opA)
  else if f.opcode = opRet then .ok .ret
  else .error (.unknownOpcode f.opcode)

/-- The bytes of an instruction at ascending addresses (R90's three formats, R100). -/
def encode : Instr → List Byte
  | .ldi opA opB => [opLdi, opA, opB]
  | .prn opA => [opPrn, opA]
  | .hlt => [opHlt]
  | .mul opA opB => [opMul, opA, opB]
  | .add opA opB => [opAdd, opA, opB]
  | .cmp opA opB => [opCmp, opA, opB]
  | .jmp opA => [opJmp, opA]
  | .jeq opA => [opJeq, opA]
  | .jne opA => [opJne, opA]
  | .push opA => [opPush, opA]
  | .pop opA => [opPop, opA]
  | .call opA => [opCall, opA]
  | .ret => [opRet]

/-- Byte `k` of an instruction whose bits are `w` in spec/opcode_table.json's numbering (byte `k` is bits
`8k+7 .. 8k`), the bits from `nbits` up being 0. -/
def tableByte (nbits w k : Nat) : Byte := BitVec.ofNat 8 ((w % 2 ^ nbits) / 2 ^ (8 * k))

/-- The three bytes the fetch unit reads of such an instruction. -/
def tableFetched (nbits w : Nat) : Fetched :=
  { opcode := tableByte nbits w 0, opA := tableByte nbits w 1, opB := tableByte nbits w 2 }

/-- The instruction the decoder reads from an instruction's bits in spec/opcode_table.json's numbering. -/
def decodeTableWord (nbits w : Nat) : Option Instr :=
  match decode (tableFetched nbits w) with
  | .ok i => some i
  | .error _ => none

end Sys2Proof
end

