-- ==== Sys2Proof/Machine/Memory.lean ====
section
/-!
DEFINITION. The memory array (spec/20_memory.md R60 to R62) on its canonical list of cells: reading a byte, writing a byte,
the canonical form, and the memory of a given image.
-/

namespace Sys2Proof.Machine

/-- The byte a list of cells holds at address `a`. -/
def Memory.readAt : Memory → Nat → Byte
  | [], _ => Config.unlistedByte
  | (k, v) :: rest, a => if k = a then v else Memory.readAt rest a

/-- `b` at address `a` in a rising list of cells. Writing what an unlisted address reads as removes the cell. -/
def Memory.writeAt : Memory → Nat → Byte → Memory
  | [], a, b => if b = Config.unlistedByte then [] else [(a, b)]
  | (k, v) :: rest, a, b =>
    if k < a then (k, v) :: Memory.writeAt rest a b
    else if k = a then (if b = Config.unlistedByte then rest else (a, b) :: rest)
    else (if b = Config.unlistedByte then (k, v) :: rest else (a, b) :: (k, v) :: rest)

/-- `Mem[a]` for an 8-bit address (R61, R62): it never faults and has no side effect. -/
def Memory.read (m : Memory) (a : Byte) : Byte := Memory.readAt m a.toNat

/-- `Mem[a] <- b` (R61): no other cell changes. -/
def Memory.write (m : Memory) (a b : Byte) : Memory := Memory.writeAt m a.toNat b

/-- Cells at strictly rising addresses from `lo` up, inside the address space, none holding `Config.unlistedByte`. -/
def Memory.wfFrom (lo : Nat) : Memory → Bool
  | [] => true
  | (k, v) :: rest =>
    decide (lo ≤ k) && decide (k < Config.memSize) && !decide (v = Config.unlistedByte) && Memory.wfFrom (k + 1) rest

/-- The canonical form of a memory: equal memories are equal lists. -/
def Memory.wf (m : Memory) : Bool := Memory.wfFrom 0 m

/-- `m` after the writes of a list, first to last. -/
def Memory.writeAll (m : Memory) : List (Byte × Byte) → Memory
  | [] => m
  | (a, b) :: rest => Memory.writeAll (m.write a b) rest

/-- The memory whose byte at every address is `image`'s: `MEM_INIT` (R75) as a memory. -/
def Memory.ofImage (image : Byte → Byte) : Memory :=
  Memory.writeAll [] ((List.range Config.memSize).map fun k => (BitVec.ofNat 8 k, image (BitVec.ofNat 8 k)))

end Sys2Proof.Machine
end

