-- ==== Sys2Proof/Machine/Ops.lean ====
section
/-!
DEFINITION. The pseudocode primitives of spec/00_scope.md R9 as operations on the state: registers, memory, program counter,
output; the program-counter sequencer (spec/40_instruction_cycle.md R126); taking a fatal condition (spec/60_exceptions.md
R226) and, beside it, the only way out of HALTED, reset (R228, spec/70_reset_and_hazards.md R250).
-/

namespace Sys2Proof.Machine

/-- `v mod 256` of an integer (R8, R24), the negative ones included. -/
def wrap (v : Int) : Byte := BitVec.ofInt 8 v

/-! ### Registers -/

/-- The cell of register `r`. -/
def RegFile.get (f : RegFile) (r : RegIdx) : Byte :=
  match r with
  | 0 => f.r0
  | 1 => f.r1
  | 2 => f.r2
  | 3 => f.r3
  | 4 => f.r4
  | 5 => f.r5
  | 6 => f.r6
  | 7 => f.r7

/-- `v` into the cell of register `r`; the others keep theirs (R21). -/
def RegFile.set (f : RegFile) (r : RegIdx) (v : Byte) : RegFile :=
  match r with
  | 0 => { f with r0 := v }
  | 1 => { f with r1 := v }
  | 2 => { f with r2 := v }
  | 3 => { f with r3 := v }
  | 4 => { f with r4 := v }
  | 5 => { f with r5 := v }
  | 6 => { f with r6 := v }
  | 7 => { f with r7 := v }

/-- `x[r]` (R9). -/
def State.reg (s : State) (r : RegIdx) : Byte := s.regs.get r

/-- `x[r] <- v` (R9, R24): the value stored is `v mod 256`, whatever the integer `v`. -/
def State.setReg (s : State) (r : RegIdx) (v : Int) : State := { s with regs := s.regs.set r (wrap v) }

/-- `SP`, the same cell as `x[7]` (R22). -/
def State.sp (s : State) : Byte := s.reg Config.spIdx

/-- `SP <- (SP - 1) mod 256`, the first statement of PUSH and CALL (R200, R210). -/
def State.decSp (s : State) : State := s.setReg Config.spIdx ((s.sp.toNat : Int) - 1)

/-- `SP <- (SP + 1) mod 256`, the last register write of POP (R201) and of the labelled alternative RET (R214). -/
def State.incSp (s : State) : State := s.setReg Config.spIdx ((s.sp.toNat : Int) + 1)

/-! ### Memory -/

/-- The byte at an 8-bit address. -/
def State.readByte (s : State) (a : Byte) : Byte := s.mem.read a

/-- `MemRead(addr, 1)` (R9, R61): the address is taken modulo 256. -/
def State.memRead (s : State) (addr : Int) : Byte := s.readByte (wrap addr)

/-- `MemWrite(addr, 1, v)` (R9, R61): the address is taken modulo 256. -/
def State.memWrite (s : State) (addr : Int) (v : Byte) : State := { s with mem := s.mem.write (wrap addr) v }

/-! ### Flags and output -/

/-- `E`, `L`, `G` all written at once (R31). -/
def State.setFlags (s : State) (f : Flags) : State := { s with flags := f }

/-- `Output(v)` (R39): one byte appended to the output trace; it never fails. -/
def State.output (s : State) (v : Byte) : State := { s with out := s.out ++ [v] }

/-! ### Program counter -/

/-- `pc <- target` (R9): the value stored is `target mod 256`. -/
def State.setPc (s : State) (target : Int) : State := { s with pc := wrap target }

/-- Auto-advance (R126): `pc <- (pc + 1 + opcode[7:6]) mod 256`. -/
def State.advance (s : State) (opcode : Byte) : State := s.setPc ((s.pc.toNat : Int) + 1 + (operandCount opcode : Int))

/-- The return address CALL stores (R210): `(a + 2) mod 256`, `a` being the CALL's own address. -/
def State.returnAddress (s : State) : Byte := wrap ((s.pc.toNat : Int) + 2)

/-- The fetch unit (R122): three byte reads, at `pc`, `pc + 1`, `pc + 2` modulo 256, whatever the opcode is. -/
def State.fetch (s : State) : Fetched where
  opcode := s.memRead s.pc.toNat
  opA := s.memRead ((s.pc.toNat : Int) + 1)
  opB := s.memRead ((s.pc.toNat : Int) + 2)

/-! ### Halting, fatal entry, reset -/

/-- `run <- HALTED; halt_cause <- HLT` (R160); the diagnostic registers are not written. -/
def State.haltNormally (s : State) : State := { s with run := .halted, haltCause := .hlt }

/-- Fatal entry (R226): `run`, `halt_cause`, `diag_addr` and `diag_opcode` are written and nothing else changes; `pc` stays
at the offending opcode byte. No state is saved and control goes nowhere. -/
def State.raise (s : State) (cause : HaltCause) (opcode : Byte) : State :=
  { s with run := .halted, haltCause := cause, diagAddr := s.pc, diagOpcode := opcode }

/-- A `reset` request (R250, R252): every item inside the block to its reset value; memory is neither read nor written.
There is no return from HALTED but this (R228). -/
def State.hostReset (s : State) : State := { State.reset with mem := s.mem }

/-- A step requested while HALTED does nothing (R121; the spec's decision D10, log entry 7). -/
def stepHalted (s : State) : Result := .next s

/-- The step's answer to bytes that decode to no instruction: fatal entry UNKNOWN_OPCODE (R128, R221). -/
def takeDecodeError (e : DecodeError) (s : State) : Result :=
  match e with
  | .unknownOpcode opcode => .next (s.raise .unknownOpcode opcode)

/-- The 3-bit encoding of `halt_cause` (R34). -/
def HaltCause.code : HaltCause → BitVec 3
  | .none => 0#3
  | .hlt => 1#3
  | .unknownOpcode => 2#3
  | .unknownAluOp => 3#3
  | .badRegIndex => 4#3

end Sys2Proof.Machine
end

