-- ==== Sys2Proof/Machine/Operands.lean ====
section
/-!
DEFINITION. The operand forms (spec/30_encoding.md R93): the register index with its check (spec/40_instruction_cycle.md
R124). The other form, LDI's immediate, is the operand byte itself and needs no operation.
-/

namespace Sys2Proof.Machine

/-- The register an operand byte names: the whole byte as a number, if it is 0..7 (R25). -/
def regIndex (b : Byte) : Option RegIdx := if h : b.toNat < 8 then some ⟨b.toNat, h⟩ else none

/-- An instruction's effect under the check of one register-index operand: above 7, fatal entry BAD_REG_INDEX before any
effect (R124, R223). -/
def withReg (opcode b : Byte) (s : State) (k : RegIdx → Result) : Result :=
  match regIndex b with
  | some r => k r
  | none => .next (s.raise .badRegIndex opcode)

end Sys2Proof.Machine
end

