-- ==== Sys2Proof/Machine/Alu.lean ====
section
/-!
DEFINITION. The ALU (spec/43_alu.md R170 to R177) and its three instructions MUL, ADD, CMP.
-/

namespace Sys2Proof.Machine

/-- What the ALU produces (R170, R174). -/
inductive AluOut where
  /-- The 8-bit result of ADD or MUL. -/
  | result (v : Byte)
  /-- The new E, L, G of CMP. -/
  | flags (f : Flags)
  /-- `alu_err`: the operation select is none of the three. -/
  | err
  deriving DecidableEq, Repr

/-! The operation select `alu_op` (R175; the encoding is the spec's decision D19, log entry 10). -/

def aluAdd : BitVec 2 := 0#2
def aluMul : BitVec 2 := 1#2
def aluCmp : BitVec 2 := 2#2

/-- The ALU: exact integer arithmetic on the two unsigned operands, narrowed to 8 bits (R171, R172, R176), or the compare
(R173). It has no state, carry or overflow output. -/
def alu (op : BitVec 2) (va vb : Byte) : AluOut :=
  if op = aluAdd then .result (wrap ((va.toNat : Int) + vb.toNat))
  else if op = aluMul then .result (wrap ((va.toNat : Int) * vb.toNat))
  else if op = aluCmp then .flags (compareFlags va vb)
  else .err

/-- What the step does with the ALU's output: write the result to `x[opA]`, or the three flags, then auto-advance; on
`alu_err` fatal entry UNKNOWN_ALU_OP (R174, R222). -/
def aluCommit (opcode : Byte) (r : RegIdx) (s : State) (o : AluOut) : State :=
  match o with
  | .result v => (s.setReg r v.toNat).advance opcode
  | .flags f => (s.setFlags f).advance opcode
  | .err => s.raise .unknownAluOp opcode

/-- An ALU instruction with operation select `op`: both register indices are checked, both operands are read before any
write (R124, R170). -/
def aluStep (op : BitVec 2) (opcode opA opB : Byte) (s : State) : Result :=
  withReg opcode opA s fun ra =>
    withReg opcode opB s fun rb => .next (aluCommit opcode ra s (alu op (s.reg ra) (s.reg rb)))

/-- MUL (R171): `x[opA] <- (x[opA] * x[opB]) mod 256`. -/
def execMul (opA opB : Byte) (s : State) : Result := aluStep aluMul opMul opA opB s

/-- ADD (R172): `x[opA] <- (x[opA] + x[opB]) mod 256`. -/
def execAdd (opA opB : Byte) (s : State) : Result := aluStep aluAdd opAdd opA opB s

/-- CMP (R173): E, L, G from comparing `x[opA]` with `x[opB]`. -/
def execCmp (opA opB : Byte) (s : State) : Result := aluStep aluCmp opCmp opA opB s

end Sys2Proof.Machine
end

