-- ==== Sys2Proof/Machine/Stack.lean ====
section
/-!
DEFINITION. Stack operations: PUSH, POP (spec/45_stack.md). The statements run in the written order, each seeing the
earlier ones' results (spec/00_scope.md R10; the spec's decision D8, log entry 6), which shows when `opA` is 7.
-/

namespace Sys2Proof.Machine

/-- `SP <- SP - 1; MemWrite(SP, 1, v)` (R200, R210): `v` is computed in the state after the decrement. -/
def pushByte (v : State → Byte) (s : State) : State := s.decSp.memWrite s.decSp.sp.toNat (v s.decSp)

/-- PUSH (R200): decrement SP, store `x[opA]` at the new SP, auto-advance. -/
def execPush (opA : Byte) (s : State) : Result :=
  withReg opPush opA s fun r => .next ((pushByte (fun s' => s'.reg r) s).advance opPush)

/-- POP (R201): load `x[opA]` from the byte at SP, then increment SP, auto-advance. -/
def execPop (opA : Byte) (s : State) : Result :=
  withReg opPop opA s fun r => .next ((s.setReg r (s.memRead s.sp.toNat).toNat).incSp.advance opPop)

end Sys2Proof.Machine
end

