-- ==== Sys2Proof/Machine/CallRet.lean ====
section
/-!
DEFINITION. Subroutine call and return: CALL, RET (spec/46_call_ret.md). Both write `pc`, so neither auto-advances.
-/

namespace Sys2Proof.Machine

/-- `pc <- x[r]`, the register being read in the state given. -/
def State.jumpTo (s : State) (r : RegIdx) : State := s.setPc (s.reg r).toNat

/-- CALL (R210): decrement SP, store the return address at the new SP, then `pc <- x[opA]` read after the decrement. -/
def execCall (opA : Byte) (s : State) : Result :=
  withReg opCall opA s fun r => .next ((pushByte State.returnAddress s).jumpTo r)

/-- RET with the parameter `RET_POPS_SP` (R211, R214): `pc` from the byte at SP; SP moves only in the labelled
alternative. -/
def returnWith (popsSp : Bool) (s : State) : State :=
  if popsSp then (s.setPc (s.memRead s.sp.toNat).toNat).incSp else s.setPc (s.memRead s.sp.toNat).toNat

/-- RET (R211) at the normative value of `RET_POPS_SP`: SP is not changed. -/
def execRet (s : State) : Result := .next (returnWith Config.retPopsSp s)

end Sys2Proof.Machine
end

