-- ==== Sys2Proof/Machine/Halt.lean ====
section
/-!
DEFINITION. Halt: HLT (spec/42_hlt.md).
-/

namespace Sys2Proof.Machine

/-- HLT (R160): `run <- HALTED`, `halt_cause <- HLT`, then auto-advance (`pc` ends one past the HLT: the spec's decision D9,
log entry 9). -/
def execHlt (s : State) : Result := .next (s.haltNormally.advance opHlt)

end Sys2Proof.Machine
end

