-- ==== Sys2Proof/Machine/Jumps.lean ====
section
/-!
DEFINITION. Jumps: JMP, JEQ, JNE (spec/44_jumps.md). A jump that is taken writes `pc` and so suppresses the auto-advance
(spec/40_instruction_cycle.md R127).
-/

namespace Sys2Proof.Machine

/-- Jump to `x[r]` if `taken`, else fall through by the auto-advance (R127, R191, R192). -/
def jumpIf (taken : Bool) (opcode : Byte) (r : RegIdx) (s : State) : State :=
  if taken then s.setPc (s.reg r).toNat else s.advance opcode

/-- JMP (R190): `pc <- x[opA]`. -/
def execJmp (opA : Byte) (s : State) : Result :=
  withReg opJmp opA s fun r => .next (jumpIf true opJmp r s)

/-- JEQ (R191): `pc <- x[opA]` if E = 1. The index is checked whether or not the jump is taken (R124). -/
def execJeq (opA : Byte) (s : State) : Result :=
  withReg opJeq opA s fun r => .next (jumpIf s.flags.e opJeq r s)

/-- JNE (R192): `pc <- x[opA]` if E = 0. The index is checked whether or not the jump is taken (R124). -/
def execJne (opA : Byte) (s : State) : Result :=
  withReg opJne opA s fun r => .next (jumpIf (!s.flags.e) opJne r s)

end Sys2Proof.Machine
end

