-- ==== Sys2Proof/Machine/LoadPrint.lean ====
section
/-!
DEFINITION. Immediate load and output: LDI, PRN (spec/41_ldi_prn.md).
-/

namespace Sys2Proof.Machine

/-- LDI (R150): `x[opA] <- opB`, then auto-advance. -/
def execLdi (opA opB : Byte) (s : State) : Result :=
  withReg opLdi opA s fun r => .next ((s.setReg r opB.toNat).advance opLdi)

/-- PRN (R151): `Output(x[opA])`, then auto-advance. -/
def execPrn (opA : Byte) (s : State) : Result :=
  withReg opPrn opA s fun r => .next ((s.output (s.reg r)).advance opPrn)

end Sys2Proof.Machine
end

