-- ==== Sys2Proof/Machine/Step.lean ====
section
/-!
DEFINITION. One instruction cycle (spec/40_instruction_cycle.md R120) and where the next instruction is fetched from.
-/

namespace Sys2Proof.Machine

/-- `step()` (R120): nothing while HALTED (R121); else fetch three bytes (R122), decode the opcode byte (R123), take
UNKNOWN_OPCODE if it is none of the 13 (R128), else execute the instruction, whose register-index check comes before its
effect (R124, R125). Each meaning ends with the auto-advance unless it writes `pc` itself (R126, R127). -/
def step (s : State) : Host.Outcome State Fault Refusal :=
  match s.run with
  | .halted => stepHalted s
  | .running =>
    match decode s.fetch with
    | .ok i => exec i s
    | .error e => takeDecodeError e s

/-- `s` with an instruction's bytes (spec/opcode_table.json's numbering, the bits from `nbits` up being 0) in memory at
`pc`, `pc + 1`, `pc + 2`, where the fetch unit reads (R122). Only memory changes; a HALTED machine stays HALTED and fetches
nothing (log entry 5). -/
def State.withFetchWord (s : State) (nbits w : Nat) : State :=
  ((s.memWrite s.pc.toNat (tableByte nbits w 0)).memWrite ((s.pc.toNat : Int) + 1) (tableByte nbits w 1)).memWrite
    ((s.pc.toNat : Int) + 2) (tableByte nbits w 2)

end Sys2Proof.Machine
end

