-- ==== Sys2Proof/Machine/Bus.lean ====
section
/-!
DEFINITION. What a step shows at the memory port and the output port (spec/10_state.md R41): its memory accesses in order
(spec/20_memory.md R65) and its output event (R39). A view of the step as defined in Step.lean, not a second meaning of it:
the statements say that the memory and the output trace change exactly as this view tells.
-/

namespace Sys2Proof.Machine

/-- One access at the memory port (`mem_addr`, `mem_rdata`, `mem_we`, `mem_wdata`): always one byte (R63). -/
inductive Access where
  | read (addr data : Byte)
  | write (addr data : Byte)
  deriving DecidableEq, Repr

/-- The read of the byte at `a`, with the byte the memory answers. -/
def State.readAccess (s : State) (a : Byte) : Access := .read a (s.readByte a)

/-- The three fetch reads of R65, in order. -/
def State.fetchAccesses (s : State) : List Access :=
  [s.readAccess s.pc, s.readAccess (wrap ((s.pc.toNat : Int) + 1)), s.readAccess (wrap ((s.pc.toNat : Int) + 2))]

/-- The accesses of an instruction whose register-index operand is `b`: none if it is above 7 (R65, "any fatal condition"). -/
def ifRegByte (b : Byte) (k : RegIdx → List Access) : List Access :=
  match regIndex b with
  | some r => k r
  | none => []

/-- The access an instruction makes after the fetch (R65's table). -/
def accessesOf (i : Instr) (s : State) : List Access :=
  match i with
  | .push opA => ifRegByte opA fun r => [.write s.decSp.sp (s.decSp.reg r)]
  | .pop opA => ifRegByte opA fun _ => [s.readAccess s.sp]
  | .call opA => ifRegByte opA fun _ => [.write s.decSp.sp s.returnAddress]
  | .ret => [s.readAccess s.sp]
  | .ldi _ _ => []
  | .prn _ => []
  | .hlt => []
  | .mul _ _ => []
  | .add _ _ => []
  | .cmp _ _ => []
  | .jmp _ => []
  | .jeq _ => []
  | .jne _ => []

/-- Every memory access of the step taken from `s`, in order (R65): none while HALTED. -/
def State.stepAccesses (s : State) : List Access :=
  match s.run with
  | .halted => []
  | .running =>
    s.fetchAccesses ++
      match decode s.fetch with
      | .ok i => accessesOf i s
      | .error _ => []

/-- The memory after a list of accesses: a read leaves it alone (R61). -/
def Memory.afterAccesses (m : Memory) : List Access → Memory
  | [] => m
  | .read _ _ :: rest => Memory.afterAccesses m rest
  | .write a b :: rest => Memory.afterAccesses (m.write a b) rest

/-- The byte an instruction emits at the output port: PRN's `x[opA]`, unless its index is above 7 (R151). -/
def outputsOf (i : Instr) (s : State) : Option Byte :=
  match i with
  | .prn opA => (regIndex opA).map s.reg
  | .ldi _ _ => none
  | .hlt => none
  | .mul _ _ => none
  | .add _ _ => none
  | .cmp _ _ => none
  | .jmp _ => none
  | .jeq _ => none
  | .jne _ => none
  | .push _ => none
  | .pop _ => none
  | .call _ => none
  | .ret => none

/-- `out_valid` and `out_data` of the step taken from `s` (R41): the byte PRN emits, if the step executes a PRN. -/
def State.stepOutput (s : State) : Option Byte :=
  match s.run with
  | .halted => none
  | .running =>
    match decode s.fetch with
    | .ok i => outputsOf i s
    | .error _ => none

end Sys2Proof.Machine
end

