-- ==== Sys2Proof/Machine/HostOps.lean ====
section
/-!
DEFINITION. The host's side of the machine (spec/10_state.md R41, spec/40_instruction_cycle.md R130 to R133,
spec/70_reset_and_hazards.md R250 to R253): power-on with any memory image, `load`, `run`, the status ports, and which
request the host may make when.
-/

namespace Sys2Proof.Machine

/-- The machine after reset with the memory image `memInit`: the spec's parameter `MEM_INIT`, any function from address to
byte (R75). -/
def State.powerOn (memInit : Byte → Byte) : State := { State.reset with mem := Memory.ofImage memInit }

/-- `load(address, byte)` (R132): a memory write and nothing else. -/
def State.load (s : State) (addr b : Byte) : State := s.memWrite addr.toNat b

/-- One `load` per byte at ascending addresses from `addr`. -/
def State.loadFrom (s : State) (addr : Byte) : List Byte → State
  | [] => s
  | b :: rest => (s.load addr b).loadFrom (wrap ((addr.toNat : Int) + 1)) rest

/-- The loader's whole work (R132, R253): the program's bytes sequentially from `LOAD_BASE`. A program longer than 256 bytes
cannot be loaded. -/
def State.loadProgram (s : State) (program : List Byte) : Option State :=
  if program.length ≤ Config.memSize then some (s.loadFrom Config.loadBase program) else none

/-- `run()` (R130) for at most `fuel` steps: `step` repeated until HALTED. -/
def runFor : Nat → State → Result
  | 0, s => .next s
  | fuel + 1, s =>
    match s.run with
    | .halted => .next s
    | .running =>
      match step s with
      | .next t => runFor fuel t
      | .fault r => .fault r
      | .refused r => .refused r

/-- The status outputs (R41). -/
structure StatusPorts where
  halted : Bool
  haltCause : BitVec 3
  diagAddr : Byte
  diagOpcode : Byte
  deriving DecidableEq, Repr

/-- What the status ports show; reading them changes nothing (R133). -/
def State.statusPorts (s : State) : StatusPorts where
  halted := decide (s.run = .halted)
  haltCause := s.haltCause.code
  diagAddr := s.diagAddr
  diagOpcode := s.diagOpcode

/-- The requests the host can make (R41, R133). -/
inductive HostRequest where
  /-- `reset`: any time between steps. -/
  | reset
  /-- `load(address, byte)`: after reset, before the first `step`. -/
  | load (addr b : Byte)
  /-- `step`: any time after reset. -/
  | step
  deriving DecidableEq, Repr

/-- The machine and where the host is: whether a step was requested since the last reset. The second is the host's, not the
machine's (R20). -/
structure Session where
  machine : State
  stepped : Bool
  deriving DecidableEq, Repr

/-- A session that begins: reset, nothing loaded, the memory image as the host supplies it (R253). -/
def Session.start (memInit : Byte → Byte) : Session := { machine := State.powerOn memInit, stepped := false }

/-- One request; `none` is a move the host must not make (R70, R133): a `load` once stepping has begun. -/
def Session.request (c : Session) : HostRequest → Option Session
  | .reset => some { machine := c.machine.hostReset, stepped := false }
  | .load addr b => if c.stepped then none else some { c with machine := c.machine.load addr b }
  | .step =>
    match step c.machine with
    | .next t => some { machine := t, stepped := true }
    | .fault _ => none
    | .refused _ => none

/-- A list of requests, first to last; `none` as soon as one is not allowed. -/
def Session.requests (c : Session) : List HostRequest → Option Session
  | [] => some c
  | q :: rest =>
    match c.request q with
    | some c' => c'.requests rest
    | none => none

end Sys2Proof.Machine
end

