-- ==== Sys2Proof/Safety.lean ====
section
/-!
DEFINITION. The terms the statements use: what two states have in common (frames), the state a fatal condition leaves, how a
run ended, and the invariant every step keeps.
-/

namespace Sys2Proof

open Machine

/-! ### Frames: what `t` has in common with `s` -/

/-- Every register but those listed is as before. -/
def RegsKept (s t : State) (but : List RegIdx) : Prop := ∀ r : RegIdx, r ∉ but → t.reg r = s.reg r

/-- Every byte of memory reads as before. -/
def MemKept (s t : State) : Prop := ∀ a : Byte, t.readByte a = s.readByte a

/-- Every byte of memory but the one at `a` reads as before. -/
def MemKeptBut (s t : State) (a : Byte) : Prop := ∀ a' : Byte, a' ≠ a → t.readByte a' = s.readByte a'

/-- The run state, the cause and the two diagnostic registers (R33 to R35) are as before. -/
def ControlKept (s t : State) : Prop :=
  t.run = s.run ∧ t.haltCause = s.haltCause ∧ t.diagAddr = s.diagAddr ∧ t.diagOpcode = s.diagOpcode

/-- The program counter moved on by `n` bytes, modulo 256. -/
def PcMoved (s t : State) (n : Nat) : Prop := t.pc.toNat = (s.pc.toNat + n) % 256

/-- An operand byte is the number of register `r`. -/
def Names (b : Byte) (r : RegIdx) : Prop := b.toNat = r.val

/-- R26's column "registers read", for a state whose E flag is `e`: register `r` is among those the instruction reads. -/
def ReadsRegister (i : Instr) (e : Bool) (r : RegIdx) : Prop :=
  match i with
  | .ldi _ _ => False
  | .prn opA => Names opA r
  | .hlt => False
  | .mul opA opB => Names opA r ∨ Names opB r
  | .add opA opB => Names opA r ∨ Names opB r
  | .cmp opA opB => Names opA r ∨ Names opB r
  | .jmp opA => Names opA r
  | .jeq opA => e = true ∧ Names opA r
  | .jne opA => e = false ∧ Names opA r
  | .push opA => r = Config.spIdx ∨ Names opA r
  | .pop _ => r = Config.spIdx
  | .call opA => r = Config.spIdx ∨ Names opA r
  | .ret => r = Config.spIdx

/-- The state a fatal condition leaves (R226): HALTED with its cause and report, all else as in `s`. -/
def fatalState (s : State) (cause : HaltCause) (opcode : Byte) : State :=
  { s with run := .halted, haltCause := cause, diagAddr := s.pc, diagOpcode := opcode }

/-! ### The opcode bytes R96 lists as unknown -/

/-- R96's table of the unknown opcode bytes, range by range. -/
def unknownOpcodeByte (n : Nat) : Bool :=
  n == 0 || (2 ≤ n && n ≤ 0x08) || (0x0A ≤ n && n ≤ 0x42) || (0x44 ≤ n && n ≤ 0x47) || (0x49 ≤ n && n ≤ 0x4B) ||
    (0x4E ≤ n && n ≤ 0x4F) || (0x53 ≤ n && n ≤ 0x98) || (0x9A ≤ n && n ≤ 0x9F) || (0xA1 ≤ n && n ≤ 0xA7) || n == 0xA9 ||
    (0xAB ≤ n && n ≤ 0xFF)

/-! ### How a run ended (R131) -/

/-- The three causes that are fatal conditions (R220); HLT is not one. -/
def IsFatalCause (c : HaltCause) : Prop :=
  c = .unknownOpcode ∨ c = .unknownAluOp ∨ c = .badRegIndex

/-- "Halted normally": by HLT. -/
def HaltedNormally (s : State) : Prop := s.run = .halted ∧ s.haltCause = .hlt

/-- Halted on a fatal condition. -/
def HaltedFatally (s : State) : Prop := s.run = .halted ∧ IsFatalCause s.haltCause

/-! ### The invariant -/

/-- What every step keeps, whatever the program. It says nothing of SP: "the invariant is an obligation on programs, never a
premise a model may assume of the machine" (R23). -/
structure Inv (s : State) : Prop where
  /-- Memory is in its canonical form. -/
  memWf : s.mem.wf = true
  /-- "`halt_cause` = 0 if and only if `run` = RUNNING" (R34). -/
  causeOfRun : s.haltCause = .none ↔ s.run = .running
  /-- The ALU never sees an unknown operation (R174, R222). -/
  aluOpKnown : s.haltCause ≠ .unknownAluOp
  /-- At most one of E, L, G is set (R32). -/
  flagsExclusive : s.flags.e.toNat + s.flags.l.toNat + s.flags.g.toNat ≤ 1
  /-- The diagnostic registers keep 0 unless a fatal condition wrote them (R35). -/
  diagZero : s.haltCause = .none ∨ s.haltCause = .hlt → s.diagAddr = 0#8 ∧ s.diagOpcode = 0#8
  /-- After a fatal condition they hold `pc`, which did not move, and the byte fetched there (R35, R227). -/
  diagReport : IsFatalCause s.haltCause → s.diagAddr = s.pc ∧ s.diagOpcode = s.readByte s.pc

end Sys2Proof
end

