-- ==== Sys2Proof/Certificates/Slice0/Obligations.lean ====
section
/-!
DEFINITION. The statements for the provers, from the spec's numbered rules. Where a clause rests on one of the spec's own
decisions (92_eei_decisions.md D1 to D23) or on a choice of the model, the docstring says so.
-/

open Sys2Proof Sys2Proof.Machine

/-! ### Encoding -/

/-- Decode and encode agree, both ways: an instruction's bytes, whatever follows them, decode to that instruction with every
operand byte at every value; and bytes that decode to an instruction begin with exactly that instruction's bytes
(30_encoding.md R90 to R94; an operand byte above 7 is decoded like any other, R99, the spec's decision D7). -/
def Obligations.DecodeAndEncodeAgree : Prop :=
  (∀ (i : Instr) (pad : List Byte), decode (Fetched.ofBytes (encode i ++ pad)) = .ok i) ∧
  (∀ (f : Fetched) (i : Instr), decode f = .ok i → encode i <+: f.bytes)

/-- R94's table, row by row: the byte in binary, the format, and which operands are register indices. -/
def Obligations.OpcodeTableRows : Prop :=
  ∀ a b : Byte,
    (decode ⟨0b10011001#8, a, b⟩ = .ok (.ldi a b) ∧ decode ⟨0b01000011#8, a, b⟩ = .ok (.prn a) ∧
      decode ⟨0b00000001#8, a, b⟩ = .ok .hlt ∧ decode ⟨0b10101010#8, a, b⟩ = .ok (.mul a b) ∧
      decode ⟨0b10101000#8, a, b⟩ = .ok (.add a b) ∧ decode ⟨0b10100000#8, a, b⟩ = .ok (.cmp a b) ∧
      decode ⟨0b01010000#8, a, b⟩ = .ok (.jmp a) ∧ decode ⟨0b01010001#8, a, b⟩ = .ok (.jeq a) ∧
      decode ⟨0b01010010#8, a, b⟩ = .ok (.jne a) ∧ decode ⟨0b01001101#8, a, b⟩ = .ok (.push a) ∧
      decode ⟨0b01001100#8, a, b⟩ = .ok (.pop a) ∧ decode ⟨0b01001000#8, a, b⟩ = .ok (.call a) ∧
      decode ⟨0b00001001#8, a, b⟩ = .ok .ret) ∧
    (encode (.ldi a b) = [0x99#8, a, b] ∧ encode (.prn a) = [0x43#8, a] ∧ encode .hlt = [0x01#8] ∧
      encode (.mul a b) = [0xAA#8, a, b] ∧ encode (.add a b) = [0xA8#8, a, b] ∧ encode (.cmp a b) = [0xA0#8, a, b] ∧
      encode (.jmp a) = [0x50#8, a] ∧ encode (.jeq a) = [0x51#8, a] ∧ encode (.jne a) = [0x52#8, a] ∧
      encode (.push a) = [0x4D#8, a] ∧ encode (.pop a) = [0x4C#8, a] ∧ encode (.call a) = [0x48#8, a] ∧
      encode .ret = [0x09#8]) ∧
    ((Instr.hlt.WellFormed ∧ Instr.ret.WellFormed) ∧
      (((Instr.ldi a b).WellFormed ↔ a.toNat ≤ 7) ∧ ((Instr.prn a).WellFormed ↔ a.toNat ≤ 7) ∧
        ((Instr.jmp a).WellFormed ↔ a.toNat ≤ 7) ∧ ((Instr.jeq a).WellFormed ↔ a.toNat ≤ 7) ∧
        ((Instr.jne a).WellFormed ↔ a.toNat ≤ 7) ∧ ((Instr.push a).WellFormed ↔ a.toNat ≤ 7) ∧
        ((Instr.pop a).WellFormed ↔ a.toNat ≤ 7) ∧ ((Instr.call a).WellFormed ↔ a.toNat ≤ 7)) ∧
      (((Instr.mul a b).WellFormed ↔ a.toNat ≤ 7 ∧ b.toNat ≤ 7) ∧ ((Instr.add a b).WellFormed ↔ a.toNat ≤ 7 ∧ b.toNat ≤ 7) ∧
        ((Instr.cmp a b).WellFormed ↔ a.toNat ≤ 7 ∧ b.toNat ≤ 7)))

/-- R96, R128: the bytes of R96's ranges, 243 of them, are exactly those that decode to no instruction, and a step that
fetches one halts with the byte and its address reported and nothing else changed. -/
def Obligations.UnknownOpcodeHaltsUnchanged : Prop :=
  (∀ f : Fetched, decode f = .error (.unknownOpcode f.opcode) ↔ unknownOpcodeByte f.opcode.toNat = true) ∧
  ((List.range 256).filter unknownOpcodeByte).length = 243 ∧
  (∀ s : State, s.run = .running → unknownOpcodeByte (s.readByte s.pc).toNat = true →
    step s = .next (fatalState s .unknownOpcode (s.readByte s.pc)))

/-- R95: an instruction has 1 + `opcode[7:6]` bytes, 1, 2 or 3, whatever its operands; and the auto-advance moves by the same
number (said here where the sum does not reach 256; past it the wrap is the spec's decision D2, AutoAdvanceUnlessPcIsSet). -/
def Obligations.LengthIsInTheOpcode : Prop :=
  ∀ (f : Fetched) (i : Instr), decode f = .ok i →
    (encode i).length = 1 + f.opcode.toNat / 64 ∧
    ((encode i).length = 1 ∨ (encode i).length = 2 ∨ (encode i).length = 3) ∧
    ∀ s : State, s.pc.toNat + (encode i).length < 256 →
      (s.advance f.opcode).pc.toNat = s.pc.toNat + (encode i).length

/-- Words written out from the spec's encodings (95_test_vectors.md S1 and Part 2) in the opcode table's bit numbering. -/
def Obligations.SampleWordsDecode : Prop :=
  decodeTableWord 24 0x080099 = some (.ldi 0x00#8 0x08#8) ∧ decodeTableWord 16 0x0043 = some (.prn 0x00#8) ∧
  decodeTableWord 8 0x01 = some .hlt ∧ decodeTableWord 24 0x0100AA = some (.mul 0x00#8 0x01#8) ∧
  decodeTableWord 24 0x0100A8 = some (.add 0x00#8 0x01#8) ∧ decodeTableWord 24 0x0200A0 = some (.cmp 0x00#8 0x02#8) ∧
  decodeTableWord 16 0x0350 = some (.jmp 0x03#8) ∧ decodeTableWord 16 0x004D = some (.push 0x00#8) ∧
  decodeTableWord 16 0x0148 = some (.call 0x01#8) ∧ decodeTableWord 8 0x09 = some .ret ∧ decodeTableWord 8 0x00 = none

/-- R92: `opA` and `opB` are the bytes at `(a + 1) mod 256` and `(a + 2) mod 256`, and the bytes beyond the instruction's
operand count play no part in what is decoded. -/
def Obligations.UnusedOperandBytesDoNotMatter : Prop :=
  (∀ (s : State) (a : Byte),
    s.fetch.opcode = s.readByte s.pc ∧
    (a.toNat = (s.pc.toNat + 1) % 256 → s.fetch.opA = s.readByte a) ∧
    (a.toNat = (s.pc.toNat + 2) % 256 → s.fetch.opB = s.readByte a)) ∧
  (∀ f g : Fetched, f.opcode = g.opcode → (1 ≤ f.opcode.toNat / 64 → f.opA = g.opA) →
    (2 ≤ f.opcode.toNat / 64 → f.opB = g.opB) → decode f = decode g)

/-! ### The step -/

/-- A step runs the decoded instruction: when the three bytes at `pc`, `pc + 1`, `pc + 2` (modulo 256) decode to `i`, well
formed or not, a RUNNING machine's step is `exec i`; nothing is added around it, each meaning ends with its own auto-advance
(40_instruction_cycle.md R120, R122, R125). -/
def Obligations.StepRunsTheDecodedInstruction : Prop :=
  ∀ (s : State) (i : Instr), s.run = .running →
    decode ⟨s.readByte s.pc, s.readByte (s.pc + 1#8), s.readByte (s.pc + 2#8)⟩ = .ok i → step s = exec i s

/-- What `withFetchWord` promises: from a RUNNING state with a canonical memory the next step runs the instruction whose
table word was placed (log entry 5; the model's own convention). -/
def Obligations.PlacedWordIsRunNext : Prop :=
  ∀ (s : State) (nbits w : Nat) (i : Instr), s.mem.wf = true → s.run = .running → decodeTableWord nbits w = some i →
    step (s.withFetchWord nbits w) = exec i (s.withFetchWord nbits w)

/-- R121 (the spec's decision D10): a step requested while HALTED changes nothing, makes no memory access and outputs
nothing. -/
def Obligations.HaltedStepDoesNothing : Prop :=
  ∀ s : State, s.run = .halted → step s = .next s ∧ s.stepAccesses = [] ∧ s.stepOutput = none

/-- From every state a step completes, with exactly one next state; so does every instruction. For a RUNNING machine this is
R129; that a step requested while HALTED completes as well is R121 with the spec's decision D10 (log entry 7). -/
def Obligations.StepIsTotalAndDeterministic : Prop :=
  (∀ s : State, ∃ t, step s = .next t ∧ ∀ u, step s = .next u → u = t) ∧
  (∀ (i : Instr) (s : State), ∃ t, exec i s = .next t)

/-- However often a HALTED machine is stepped its state stays the same, cause and report included; `reset` is the way out and
keeps nothing of the block's state (only the memory, which is outside the block). R228 says that HALTED is terminal and allows a
step there to be "a no-op (or fail loudly)"; that it is the no-op, so that any number of steps answers the same state, is R121
with the spec's decision D10 (log entry 7). -/
def Obligations.HaltedIsTerminal : Prop :=
  ∀ s : State,
    (s.run = .halted → ∀ n, core.run n s = .next s ∧ runFor n s = .next s) ∧
    s.hostReset.run = .running ∧ (∀ s' : State, s'.mem = s.mem → s'.hostReset = s.hostReset)

/-- The run state starts RUNNING; a step makes it HALTED by HLT or by a fatal condition and in no other way; no instruction and
no step makes it RUNNING again; reset does; the `halted` output shows it (R33). That a step which halts on a fatal condition
leaves the whole state of fatal entry is R226, for BAD_REG_INDEX by the spec's decision D11 (log entry 11). -/
def Obligations.RunStateTransitions : Prop :=
  State.reset.run = .running ∧
  (∀ s t : State, s.run = .running → step s = .next t → t.run = .halted →
    (decode s.fetch = .ok .hlt ∧ t.haltCause = .hlt) ∨ ∃ c opcode, IsFatalCause c ∧ t = fatalState s c opcode) ∧
  (∀ s t : State, step s = .next t → decode s.fetch = .ok .hlt → t.run = .halted) ∧
  (∀ (i : Instr) (s t : State), s.run = .halted → exec i s = .next t → t.run = .halted) ∧
  (∀ s t : State, s.run = .halted → step s = .next t → t.run = .halted) ∧
  (∀ s : State, s.hostReset.run = .running) ∧
  (∀ s : State, s.statusPorts.halted = true ↔ s.run = .halted)

/-- R226, R227 (for the two causes the source does not speak of, the spec's decision D11): a step that takes a fatal
condition changes `run`, `halt_cause`, `diag_addr` and `diag_opcode` only, and the report is `pc` and the opcode byte there.
The premise `halt_cause` = NONE is R34's invariant of a RUNNING machine. -/
def Obligations.FatalStepChangesOnlyTheReport : Prop :=
  ∀ s t : State, s.run = .running → s.haltCause = .none → step s = .next t → IsFatalCause t.haltCause →
    t = fatalState s t.haltCause (s.readByte s.pc)

/-- R124, R223 (the spec's decision D7): every form with a register-index operand above 7 takes BAD_REG_INDEX before any
effect, JEQ and JNE whether or not the jump would be taken. -/
def Obligations.BadRegisterIndexIsFatal : Prop :=
  ∀ (s : State) (a b : Byte),
    (7 < a.toNat →
      exec (.ldi a b) s = .next (fatalState s .badRegIndex 0x99#8) ∧
      exec (.prn a) s = .next (fatalState s .badRegIndex 0x43#8) ∧
      exec (.jmp a) s = .next (fatalState s .badRegIndex 0x50#8) ∧
      exec (.jeq a) s = .next (fatalState s .badRegIndex 0x51#8) ∧
      exec (.jne a) s = .next (fatalState s .badRegIndex 0x52#8) ∧
      exec (.push a) s = .next (fatalState s .badRegIndex 0x4D#8) ∧
      exec (.pop a) s = .next (fatalState s .badRegIndex 0x4C#8) ∧
      exec (.call a) s = .next (fatalState s .badRegIndex 0x48#8)) ∧
    (7 < a.toNat ∨ 7 < b.toNat →
      exec (.mul a b) s = .next (fatalState s .badRegIndex 0xAA#8) ∧
      exec (.add a b) s = .next (fatalState s .badRegIndex 0xA8#8) ∧
      exec (.cmp a b) s = .next (fatalState s .badRegIndex 0xA0#8))

/-- R225 (the spec's decision D16): an unknown opcode reports UNKNOWN_OPCODE whatever its operand bytes; BAD_REG_INDEX is
reported exactly by a known opcode with a bad register index. -/
def Obligations.FatalConditionsInPriorityOrder : Prop :=
  ∀ s t : State, s.run = .running → s.haltCause = .none → step s = .next t →
    (t.haltCause = .unknownOpcode ↔ unknownOpcodeByte (s.readByte s.pc).toNat = true) ∧
    (t.haltCause = .badRegIndex ↔ ∃ i, decode s.fetch = .ok i ∧ ¬ i.WellFormed)

/-- R174, R175, R222 (the spec's decisions D11, D19): the ALU raises its error for the operation select 3 and no other, the
error is a fatal entry UNKNOWN_ALU_OP, and no instruction brings it about. -/
def Obligations.UnknownAluOperationIsFatalAndUnreachable : Prop :=
  (∀ (op : BitVec 2) (va vb : Byte), alu op va vb = .err ↔ op = 3#2) ∧
  (∀ (opcode : Byte) (r : RegIdx) (s : State), aluCommit opcode r s .err = fatalState s .unknownAluOp opcode) ∧
  (∀ (i : Instr) (s t : State), s.haltCause ≠ .unknownAluOp → exec i s = .next t → t.haltCause ≠ .unknownAluOp)

/-! ### The instructions: result, frame and completion -/

/-- LDI (R150; the wrap of `pc` is the spec's decision D2): `x[opA] <- opB`, every other register, the flags, memory, output
and control registers kept. -/
def Obligations.LdiLoadsTheImmediate : Prop :=
  ∀ (s : State) (opA opB : Byte) (r : RegIdx), Names opA r →
    ∃ t, exec (.ldi opA opB) s = .next t ∧ t.reg r = opB ∧ RegsKept s t [r] ∧ t.flags = s.flags ∧ PcMoved s t 3 ∧
      MemKept s t ∧ t.out = s.out ∧ ControlKept s t

/-- PRN (R151, R39; wrap of `pc` D2, the byte as output D13): one byte, the whole register, is appended to the output trace;
no register, flag or memory byte changes. -/
def Obligations.PrnEmitsTheRegister : Prop :=
  ∀ (s : State) (opA : Byte) (r : RegIdx), Names opA r →
    ∃ t, exec (.prn opA) s = .next t ∧ t.out = s.out ++ [s.reg r] ∧ RegsKept s t [] ∧ t.flags = s.flags ∧ PcMoved s t 2 ∧
      MemKept s t ∧ ControlKept s t

/-- HLT (R160): HALTED with cause HLT, nothing else changed but `pc`, which ends one past the HLT (the spec's decision
D9). -/
def Obligations.HltHalts : Prop :=
  ∀ s : State, ∃ t, exec .hlt s = .next t ∧ t.run = .halted ∧ t.haltCause = .hlt ∧ t.diagAddr = s.diagAddr ∧
    t.diagOpcode = s.diagOpcode ∧ RegsKept s t [] ∧ t.flags = s.flags ∧ PcMoved s t 1 ∧ MemKept s t ∧ t.out = s.out

/-- MUL (R171, R176; wrap of `pc` D2): the product modulo 256 into `x[opA]`, with `opA` and `opB` any two registers, the same
one included; no flag changes. -/
def Obligations.MulMultipliesModulo256 : Prop :=
  ∀ (s : State) (opA opB : Byte) (ra rb : RegIdx), Names opA ra → Names opB rb →
    ∃ t, exec (.mul opA opB) s = .next t ∧ (t.reg ra).toNat = ((s.reg ra).toNat * (s.reg rb).toNat) % 256 ∧
      RegsKept s t [ra] ∧ t.flags = s.flags ∧ PcMoved s t 3 ∧ MemKept s t ∧ t.out = s.out ∧ ControlKept s t

/-- ADD (R172, R176; wrap of `pc` D2): the sum modulo 256 into `x[opA]`; no flag changes. -/
def Obligations.AddAddsModulo256 : Prop :=
  ∀ (s : State) (opA opB : Byte) (ra rb : RegIdx), Names opA ra → Names opB rb →
    ∃ t, exec (.add opA opB) s = .next t ∧ (t.reg ra).toNat = ((s.reg ra).toNat + (s.reg rb).toNat) % 256 ∧
      RegsKept s t [ra] ∧ t.flags = s.flags ∧ PcMoved s t 3 ∧ MemKept s t ∧ t.out = s.out ∧ ControlKept s t

/-- CMP (R173, R32; which of L and G goes with which order is the spec's decision D6, the wrap of `pc` D2): E, L, G by the
unsigned order of the two registers, exactly one of them set, whatever they held; `CMP(x,x)` sets E; no register changes. -/
def Obligations.CmpSetsExactlyOneFlag : Prop :=
  ∀ (s : State) (opA opB : Byte) (ra rb : RegIdx), Names opA ra → Names opB rb →
    ∃ t, exec (.cmp opA opB) s = .next t ∧
      (t.flags.e = true ↔ (s.reg ra).toNat = (s.reg rb).toNat) ∧ (t.flags.l = true ↔ (s.reg ra).toNat < (s.reg rb).toNat) ∧
      (t.flags.g = true ↔ (s.reg rb).toNat < (s.reg ra).toNat) ∧
      t.flags.e.toNat + t.flags.l.toNat + t.flags.g.toNat = 1 ∧ (ra = rb → t.flags.e = true) ∧
      RegsKept s t [] ∧ PcMoved s t 3 ∧ MemKept s t ∧ t.out = s.out ∧ ControlKept s t

/-- JMP (R190): `pc <- x[opA]`, any of 0..255, and nothing else changes. -/
def Obligations.JmpGoesToTheRegister : Prop :=
  ∀ (s : State) (opA : Byte) (r : RegIdx), Names opA r →
    ∃ t, exec (.jmp opA) s = .next t ∧ t.pc = s.reg r ∧ RegsKept s t [] ∧ t.flags = s.flags ∧ MemKept s t ∧
      t.out = s.out ∧ ControlKept s t

/-- JEQ and JNE (R191, R192, R127; the wrap of `pc` is D2): JEQ jumps exactly when E is set, JNE exactly when E is clear, so
one of the two is taken in any state; the other moves on by 2. Neither changes anything but `pc`. -/
def Obligations.ConditionalJumpsFollowE : Prop :=
  ∀ (s : State) (opA : Byte) (r : RegIdx), Names opA r →
    ∃ t u, exec (.jeq opA) s = .next t ∧ exec (.jne opA) s = .next u ∧
      (s.flags.e = true → t.pc = s.reg r ∧ PcMoved s u 2) ∧ (s.flags.e = false → PcMoved s t 2 ∧ u.pc = s.reg r) ∧
      RegsKept s t [] ∧ t.flags = s.flags ∧ MemKept s t ∧ t.out = s.out ∧ ControlKept s t ∧
      RegsKept s u [] ∧ u.flags = s.flags ∧ MemKept s u ∧ u.out = s.out ∧ ControlKept s u

/-- PUSH (R200, R203; the wrap of `pc` is D2, the order of the statements for `opA` = 7 is D8): SP goes down by 1 modulo 256
and `x[opA]` is stored at the new SP; for `opA` = 7 the byte stored is the new SP. Every other byte of memory and every
register but SP is kept. -/
def Obligations.PushStoresAtTheDecrementedSp : Prop :=
  ∀ (s : State) (opA : Byte) (r : RegIdx), s.mem.wf = true → Names opA r →
    ∃ t, exec (.push opA) s = .next t ∧
      (∀ a : Byte, s.decSp.sp = a → a.toNat = (s.sp.toNat + 255) % 256 ∧ t.sp = a ∧
        t.readByte a = (if r = 7 then a else s.reg r) ∧ MemKeptBut s t a) ∧
      RegsKept s t [7] ∧ t.flags = s.flags ∧ PcMoved s t 2 ∧ t.out = s.out ∧ ControlKept s t

/-- POP (R201; wrap of `pc` D2, order for `opA` = 7 D8): `x[opA]` gets the byte at SP, then SP goes up by 1 modulo 256; for
`opA` = 7 SP ends one above the byte loaded. Memory is not changed. -/
def Obligations.PopLoadsFromSp : Prop :=
  ∀ (s : State) (opA : Byte) (r : RegIdx), Names opA r →
    ∃ t, exec (.pop opA) s = .next t ∧
      (r ≠ 7 → t.reg r = s.readByte s.sp ∧ t.sp.toNat = (s.sp.toNat + 1) % 256) ∧
      (r = 7 → t.sp.toNat = ((s.readByte s.sp).toNat + 1) % 256) ∧
      RegsKept s t [r, 7] ∧ t.flags = s.flags ∧ PcMoved s t 2 ∧ MemKept s t ∧ t.out = s.out ∧ ControlKept s t

/-- CALL (R210; wrap of the return address D2, order for `opA` = 7 D8): SP goes down by 1, the address of the instruction
after the CALL is stored at the new SP, and `pc` becomes `x[opA]` as it is after the decrement. -/
def Obligations.CallPushesTheReturnAddress : Prop :=
  ∀ (s : State) (opA : Byte) (r : RegIdx), s.mem.wf = true → Names opA r →
    ∃ t, exec (.call opA) s = .next t ∧
      (∀ a : Byte, s.decSp.sp = a → a.toNat = (s.sp.toNat + 255) % 256 ∧ t.sp = a ∧
        (t.readByte a).toNat = (s.pc.toNat + 2) % 256 ∧ MemKeptBut s t a ∧ t.pc = (if r = 7 then a else s.reg r)) ∧
      RegsKept s t [7] ∧ t.flags = s.flags ∧ t.out = s.out ∧ ControlKept s t

/-- RET (R211): its byte is 0x09 whatever follows it; `pc` becomes the byte at SP and nothing else changes, SP included; the
one access after the fetch is that read. -/
def Obligations.RetDoesNotPop : Prop :=
  (∀ a b : Byte, decode ⟨0x09#8, a, b⟩ = .ok .ret) ∧ encode .ret = [0x09#8] ∧
  ∀ s : State, ∃ t, exec .ret s = .next t ∧ t.pc = s.readByte s.sp ∧ t.sp = s.sp ∧ RegsKept s t [] ∧ t.flags = s.flags ∧
    MemKept s t ∧ t.out = s.out ∧ ControlKept s t ∧ accessesOf .ret s = [.read s.sp (s.readByte s.sp)]

/-- The labelled alternative RET (R214, the spec's decision D18), which the parameter selects and the model does not: it also
increments SP, so that a CALL (R210) and such a return leave SP as it was and, by R212, go on after the CALL. The wrap of that
address modulo 256 is the spec's decision D2 (log entry 3); with `opA` = 7 the CALL's order is D8 (log entry 6). -/
def Obligations.AlternativeRetWouldPop : Prop :=
  Config.retPopsSp = false ∧ (∀ s : State, exec .ret s = .next (returnWith Config.retPopsSp s)) ∧
  (∀ s : State, (returnWith true s).pc = s.readByte s.sp ∧ (returnWith true s).sp.toNat = (s.sp.toNat + 1) % 256) ∧
  (∀ (s t : State) (opA : Byte) (r : RegIdx), s.mem.wf = true → Names opA r → exec (.call opA) s = .next t →
    (returnWith true t).sp = s.sp ∧ (returnWith true t).pc.toNat = (s.pc.toNat + 2) % 256)

/-! ### Rules over all instructions -/

/-- R31: only CMP writes the flags, all three at once and whatever they held; JEQ and JNE read E, and nothing else does;
nothing reads L or G (what else an instruction does is the same whatever they hold). Where JEQ and JNE go for each value of E is
R191 and R192, and that the fall-through `pc + 2` wraps modulo 256 is the spec's decision D2 (log entry 3). -/
def Obligations.OnlyCmpWritesFlagsOnlyEIsRead : Prop :=
  (∀ (i : Instr) (s t : State), (∀ a b, i ≠ .cmp a b) → exec i s = .next t → t.flags = s.flags) ∧
  (∀ s t : State, (s.readByte s.pc).toNat ≠ 0xA0 → step s = .next t → t.flags = s.flags) ∧
  (∀ (a : Byte) (r : RegIdx) (s t u : State), Names a r → exec (.jeq a) s = .next t → exec (.jne a) s = .next u →
    t.pc = (if s.flags.e then s.reg r else s.pc + 2#8) ∧ u.pc = (if s.flags.e then s.pc + 2#8 else s.reg r)) ∧
  (∀ (a b : Byte) (s t : State) (f : Flags), (Instr.cmp a b).WellFormed → exec (.cmp a b) s = .next t →
    exec (.cmp a b) { s with flags := f } = .next t) ∧
  (∀ (i : Instr) (s t : State) (f : Flags), (∀ a, i ≠ .jeq a ∧ i ≠ .jne a) → exec i s = .next t →
    ∃ f', exec i { s with flags := f } = .next { t with flags := f' }) ∧
  (∀ (i : Instr) (s t : State) (f : Flags), f.e = s.flags.e → exec i s = .next t →
    ∃ f', exec i { s with flags := f } = .next { t with flags := f' })

/-- R26: a register changes only as the destination of LDI, MUL, ADD or POP, or as SP in PUSH, POP and CALL. -/
def Obligations.RegistersWrittenAsTabled : Prop :=
  ∀ (i : Instr) (s t : State) (r : RegIdx), exec i s = .next t → t.reg r ≠ s.reg r →
    (∃ a b, Names a r ∧ (i = .ldi a b ∨ i = .mul a b ∨ i = .add a b)) ∨ (∃ a, Names a r ∧ i = .pop a) ∨
    (r = 7 ∧ ∃ a, i = .push a ∨ i = .pop a ∨ i = .call a)

/-- R26's other column: what an instruction does depends on no register but those the table says it reads (JEQ and JNE read
theirs only when they jump): with another value in a register it does not read, it does the same, that register aside. -/
def Obligations.RegistersReadAsTabled : Prop :=
  ∀ (i : Instr) (s t : State) (r : RegIdx) (v : Byte), ¬ ReadsRegister i s.flags.e r → exec i s = .next t →
    ∃ f : RegFile, exec i { s with regs := s.regs.set r v } = .next { t with regs := f } ∧
      ∀ r', r' ≠ r → f.get r' = t.reg r'

/-- R126, R127 (the wrap is the spec's decision D2): an instruction either is one of the five that set `pc` themselves (JMP,
JEQ with E set, JNE with E clear, CALL, RET) or moves `pc` on by 1 + `opcode[7:6]`, by the operation alone and not by
comparing old and new values. -/
def Obligations.AutoAdvanceUnlessPcIsSet : Prop :=
  ∀ (i : Instr) (s t : State), i.WellFormed → exec i s = .next t →
    ((∃ a, i = .jmp a) ∨ (∃ a, i = .jeq a ∧ s.flags.e = true) ∨ (∃ a, i = .jne a ∧ s.flags.e = false) ∨
      (∃ a, i = .call a) ∨ i = .ret) ∨
    t.pc.toNat = (s.pc.toNat + 1 + i.opcode.toNat / 64) % 256

/-- R39, R41 (the byte as output is the spec's decision D13): a step appends to the output trace exactly the byte at the
output port, if any; only PRN shows one; and the trace cannot be read back: what else a step does is the same whatever the
trace holds. -/
def Obligations.OnlyPrnWritesTheOutputTrace : Prop :=
  (∀ s t : State, step s = .next t → t.out = s.out ++ s.stepOutput.toList) ∧
  (∀ s : State, s.stepOutput ≠ none → s.run = .running ∧ (s.readByte s.pc).toNat = 0x43) ∧
  (∀ (s t : State) (o : List Byte), step s = .next t →
    step { s with out := o } = .next { t with out := o ++ s.stepOutput.toList })

/-- R65, R69, R73 (the wrap of the addresses is the spec's decision D2): the accesses of a step are the three fetch reads and
then at most one more, every read returns the byte memory holds, and the memory after the step is the memory before it with
the writes among them made; only PUSH and CALL write. -/
def Obligations.MemoryFollowsTheAccesses : Prop :=
  (∀ s : State, s.run = .running →
    (s.stepAccesses.take 3 = [.read s.pc (s.readByte s.pc), .read (s.pc + 1#8) (s.readByte (s.pc + 1#8)),
      .read (s.pc + 2#8) (s.readByte (s.pc + 2#8))]) ∧ s.stepAccesses.length ≤ 4) ∧
  (∀ (s : State) (a d : Byte), Access.read a d ∈ s.stepAccesses → d = s.readByte a) ∧
  (∀ (s : State) (a d : Byte), Access.write a d ∈ s.stepAccesses →
    (s.readByte s.pc).toNat = 0x4D ∨ (s.readByte s.pc).toNat = 0x48) ∧
  (∀ s t : State, step s = .next t → t.mem = s.mem.afterAccesses s.stepAccesses)

/-- R202: `PUSH Rr` then `POP Rr`, for every r, 7 included (decision D8), and every SP: all registers and flags as before,
the pushed byte left in memory and `pc` on by 4, provided the PUSH does not overwrite the POP's bytes. -/
def Obligations.PushThenPopBalances : Prop :=
  ∀ (s : State) (b : Byte) (r : RegIdx), s.mem.wf = true → s.run = .running → Names b r →
    s.readByte s.pc = 0x4D#8 → s.readByte (s.pc + 1#8) = b → s.readByte (s.pc + 2#8) = 0x4C#8 →
    s.readByte (s.pc + 3#8) = b → s.sp - 1#8 ≠ s.pc + 2#8 → s.sp - 1#8 ≠ s.pc + 3#8 →
    ∃ u t, step s = .next u ∧ step u = .next t ∧ RegsKept s t [] ∧ t.flags = s.flags ∧ PcMoved s t 4 ∧
      t.readByte (s.sp - 1#8) = (if r = 7 then s.sp - 1#8 else s.reg r) ∧ MemKeptBut s t (s.sp - 1#8) ∧ t.out = s.out ∧
      ControlKept s t

/-- R212: a CALL at `a`, and a RET executed later with SP back where the CALL left it and the stored byte intact, resume at
`a + 2` with SP one lower than before the CALL (modulo 256: decision D2). -/
def Obligations.RetResumesAfterCall : Prop :=
  ∀ (s t u : State) (opA : Byte) (r : RegIdx), s.mem.wf = true → Names opA r → exec (.call opA) s = .next t →
    u.sp = t.sp → u.readByte u.sp = t.readByte t.sp →
    ∃ v, exec .ret u = .next v ∧ v.pc.toNat = (s.pc.toNat + 2) % 256 ∧ v.sp.toNat = (s.sp.toNat + 255) % 256

/-! ### Registers and memory -/

/-- R24: a register write stores the integer's value modulo 256, negative ones included, and a read returns the value last
written, or the reset value if none was; R21's cells are independent. -/
def Obligations.RegisterWriteWraps : Prop :=
  ∀ (s : State) (r : RegIdx) (v : Int),
    (((s.setReg r v).reg r).toNat : Int) = v % 256 ∧ (∀ r', r' ≠ r → (s.setReg r v).reg r' = s.reg r') ∧
    (∀ v' : Int, ((s.setReg r v).setReg r v') = s.setReg r v') ∧
    State.reset.reg r = (if r = Config.spIdx then Config.spReset else Config.regReset)

/-- R61 (addresses modulo 256: the spec's decision D1): a read returns the byte last written, a write changes no other cell
and keeps the canonical form of the memory, addresses count modulo 256, and two canonical memories that read alike are the
same. -/
def Obligations.MemoryReadsWhatWasWritten : Prop :=
  ∀ (s : State) (addr : Int) (v : Byte), s.mem.wf = true →
    (s.memWrite addr v).memRead addr = v ∧
    (∀ addr', addr' % 256 ≠ addr % 256 → (s.memWrite addr v).memRead addr' = s.memRead addr') ∧
    (s.memWrite addr v).mem.wf = true ∧
    (∀ addr', addr' % 256 = addr % 256 → s.memRead addr' = s.memRead addr) ∧
    (∀ m : Memory, m.wf = true → (∀ a : Byte, m.read a = s.mem.read a) → m = s.mem)

/-! ### Reset and the host -/

/-- R40, R250, R251: every item of state after a `reset` request. SP = 244, `pc` = 0 and RUNNING are the source's values; the
others are the spec's decisions D4 (registers 0 to 6), D5 (flags), D12 (cause and report). The memory kept is R252's. -/
def Obligations.ResetValues : Prop :=
  ∀ s : State, s.hostReset.pc = 0#8 ∧ s.hostReset.sp = 244#8 ∧ (∀ r : RegIdx, r ≠ 7 → s.hostReset.reg r = 0#8) ∧
    s.hostReset.flags = { e := false, l := false, g := false } ∧ s.hostReset.run = .running ∧
    s.hostReset.haltCause.code = 0#3 ∧ s.hostReset.diagAddr = 0#8 ∧ s.hostReset.diagOpcode = 0#8 ∧ s.hostReset.out = []

/-- R252: reset neither writes memory nor reads it: memory holds what it held, and what the block is reset to is the same
whatever memory holds. -/
def Obligations.ResetLeavesMemoryAlone : Prop :=
  ∀ (s : State) (m : Memory),
    s.hostReset.mem = s.mem ∧ { s with mem := m }.hostReset = { s.hostReset with mem := m }

/-- R75 (the spec's decision D15): `MEM_INIT` is any function from address to byte: the machine powered on with it is in the
reset state but for memory, reads as it at every address, and every canonical memory is the memory of one. -/
def Obligations.PowerOnMemoryIsMemInit : Prop :=
  (∀ memInit : Byte → Byte,
    (∀ a : Byte, (State.powerOn memInit).readByte a = memInit a) ∧ (State.powerOn memInit).mem.wf = true ∧
    State.powerOn memInit = { State.reset with mem := (State.powerOn memInit).mem }) ∧
  (∀ m : Memory, m.wf = true → ∃ memInit : Byte → Byte, (State.powerOn memInit).mem = m)

/-- R132, R253 (256 addresses: decision D1): loading a program puts its bytes at 0, 1, 2, ... and changes nothing else; one
longer than 256 bytes cannot be loaded. -/
def Obligations.LoadInstallsTheProgram : Prop :=
  ∀ (s : State) (program : List Byte), s.mem.wf = true →
    (program.length ≤ 256 → ∃ t, s.loadProgram program = some t ∧
      (∀ (k : Nat) (h : k < program.length), t.readByte (BitVec.ofNat 8 k) = program[k]) ∧
      (∀ a : Byte, program.length ≤ a.toNat → t.readByte a = s.readByte a) ∧ t = { s with mem := t.mem }) ∧
    (256 < program.length → s.loadProgram program = none)

/-- R70, R133 (the spec's decision D21): once a step was requested a `load` is no move of the host's, and a reset allows it
again. -/
def Obligations.LoadOnlyBeforeStepping : Prop :=
  ∀ (c c' : Session) (a b : Byte), c.request .step = some c' →
    c'.request (.load a b) = none ∧ ∃ d, c'.requests [.reset, .load a b] = some d ∧ d.machine = c'.machine.hostReset.load a b

/-- `run()` is `step` repeated, with nothing added; and it need not end: some program runs for ever (R130). R130 repeats only
until HALTED: that the host's plain repetition of `step` agrees with it beyond that point rests on R121 with the spec's decision
D10, a step while HALTED is a no-op (log entry 7). -/
def Obligations.RunIsRepeatedStep : Prop :=
  (∀ (n : Nat) (s : State), runFor n s = core.run n s) ∧
  (∃ s : State, s.mem.wf = true ∧ ∀ n, ∃ t, runFor n s = .next t ∧ t.run = .running)

/-! ### The invariant -/

/-- Every step keeps the invariant, whatever the program and whatever the state it starts from (R23, R32, R34, R35, R174,
R227; 10_state.md, 60_exceptions.md; it rests on the decisions D5, D11, D12 of the spec). -/
def Obligations.StepKeepsTheInvariant : Prop :=
  ∀ s t : State, Inv s → step s = .next t → Inv t

/-- The invariant holds right after reset, and after a reset of any machine whose memory is canonical (R40, R250; the memory kept
is R252's). It rests on the spec's decisions D5 for the flags (log entry 2) and D12 for the cause and the report (log entry
12); that `State.reset` lists no memory cell is log entry 4. -/
def Obligations.ResetMeetsTheInvariant : Prop :=
  Inv State.reset ∧ ∀ s : State, s.mem.wf = true → Inv s.hostReset

/-- Whatever the host does within R133's table (any memory image, loads before stepping, steps, resets at any time), the
machine it holds meets the invariant. When a load is allowed is the spec's decision D21 (log entry 15), that reset may be
requested again is D23 (log entry 16), the reset values of flags, cause and report are D5 and D12 (log entries 2, 12), and the
memory image is any (D15, log entry 4). -/
def Obligations.EverySessionMeetsTheInvariant : Prop :=
  ∀ (memInit : Byte → Byte) (qs : List HostRequest) (c : Session),
    (Session.start memInit).requests qs = some c → Inv c.machine

/-- R131, R34: a machine that halted (in a state that meets the invariant) ended either normally, by HLT, or on one of the two
fatal conditions that programs reach, and not both; the `halted` and `halt_cause` outputs tell which (codes: the spec's
decision D12). -/
def Obligations.EveryHaltHasOneCause : Prop :=
  ∀ s : State, Inv s → s.run = .halted →
    (HaltedNormally s ∧ ¬ HaltedFatally s ∧ s.statusPorts.haltCause = 1#3) ∨
    (HaltedFatally s ∧ ¬ HaltedNormally s ∧ (s.statusPorts.haltCause = 2#3 ∨ s.statusPorts.haltCause = 4#3))
end

