-- ==== Sys2Proof/Laws/Arith.lean ====
section
/-!
SUPPORT. Laws of `wrap`, the reduction modulo 256.
-/

namespace Sys2Proof.Machine

theorem wrap_toNat (v : Int) : (wrap v).toNat = (v % 256).toNat := by
  simp [wrap, BitVec.toNat_ofInt]

@[simp] theorem wrap_byte (b : Byte) : wrap (b.toNat : Int) = b := by
  apply BitVec.eq_of_toNat_eq
  have := b.isLt
  rw [wrap_toNat]; omega

theorem wrap_natCast_toNat (n : Nat) : (wrap (n : Int)).toNat = n % 256 := by
  rw [wrap_toNat]; omega

theorem wrap_add_natCast_toNat (b : Byte) (n : Nat) : (wrap ((b.toNat : Int) + n)).toNat = (b.toNat + n) % 256 := by
  rw [wrap_toNat]; omega

theorem wrap_add_one (b : Byte) : wrap ((b.toNat : Int) + 1) = b + 1#8 := by
  apply BitVec.eq_of_toNat_eq
  rw [wrap_toNat, BitVec.toNat_add]; simp; omega

theorem wrap_add_two (b : Byte) : wrap ((b.toNat : Int) + 2) = b + 2#8 := by
  apply BitVec.eq_of_toNat_eq
  rw [wrap_toNat, BitVec.toNat_add]; simp; omega

theorem wrap_sub_one (b : Byte) : wrap ((b.toNat : Int) - 1) = b - 1#8 := by
  apply BitVec.eq_of_toNat_eq
  have := b.isLt
  rw [wrap_toNat, BitVec.toNat_sub]; simp; omega

end Sys2Proof.Machine
end

