-- ==== Sys2Proof/Laws/Decode.lean ====
section
/-!
SUPPORT. Laws of the decoder: exactly which fetched bytes decode to which instruction, and which to none.
-/

namespace Sys2Proof

/-- Every opcode byte of R94 decodes to its own row, with the operand bytes as fetched. -/
theorem decode_row (a b : Byte) :
    decode ⟨opLdi, a, b⟩ = .ok (.ldi a b) ∧ decode ⟨opPrn, a, b⟩ = .ok (.prn a) ∧ decode ⟨opHlt, a, b⟩ = .ok .hlt ∧
    decode ⟨opMul, a, b⟩ = .ok (.mul a b) ∧ decode ⟨opAdd, a, b⟩ = .ok (.add a b) ∧
    decode ⟨opCmp, a, b⟩ = .ok (.cmp a b) ∧ decode ⟨opJmp, a, b⟩ = .ok (.jmp a) ∧
    decode ⟨opJeq, a, b⟩ = .ok (.jeq a) ∧ decode ⟨opJne, a, b⟩ = .ok (.jne a) ∧
    decode ⟨opPush, a, b⟩ = .ok (.push a) ∧ decode ⟨opPop, a, b⟩ = .ok (.pop a) ∧
    decode ⟨opCall, a, b⟩ = .ok (.call a) ∧ decode ⟨opRet, a, b⟩ = .ok .ret :=
  ⟨rfl, rfl, rfl, rfl, rfl, rfl, rfl, rfl, rfl, rfl, rfl, rfl, rfl⟩

/-- An opcode byte is one of the 13. -/
theorem mem_opcodeBytes {op : Byte} : op ∈ opcodeBytes ↔
    op = opLdi ∨ op = opPrn ∨ op = opHlt ∨ op = opMul ∨ op = opAdd ∨ op = opCmp ∨ op = opJmp ∨ op = opJeq ∨
    op = opJne ∨ op = opPush ∨ op = opPop ∨ op = opCall ∨ op = opRet := by
  simp only [opcodeBytes, List.mem_cons, List.not_mem_nil, or_false]

theorem opcode_mem (i : Instr) : i.opcode ∈ opcodeBytes := by
  rw [mem_opcodeBytes]; cases i <;> simp [Instr.opcode]

theorem encode_eq_cons (i : Instr) : ∃ operands, encode i = i.opcode :: operands := by
  cases i <;> exact ⟨_, rfl⟩

theorem decode_error_of_notMem {f : Fetched} (h : f.opcode ∉ opcodeBytes) :
    decode f = .error (.unknownOpcode f.opcode) := by
  simp only [mem_opcodeBytes, not_or] at h
  obtain ⟨h1, h2, h3, h4, h5, h6, h7, h8, h9, h10, h11, h12, h13⟩ := h
  simp only [decode, if_neg h1, if_neg h2, if_neg h3, if_neg h4, if_neg h5, if_neg h6, if_neg h7, if_neg h8, if_neg h9,
    if_neg h10, if_neg h11, if_neg h12, if_neg h13]

/-- Decoding an instruction's own bytes, whatever follows them, gives the instruction back. -/
theorem decode_of_prefix {f : Fetched} {i : Instr} (h : encode i <+: f.bytes) : decode f = .ok i := by
  obtain ⟨op, a, b⟩ := f
  cases i <;> simp only [encode, Fetched.bytes, List.cons_prefix_cons] at h
  all_goals first
    | obtain ⟨rfl, rfl, rfl, -⟩ := h
    | obtain ⟨rfl, rfl, -⟩ := h
    | obtain ⟨rfl, -⟩ := h
  all_goals rfl

/-- If the opcode byte is one of the 13, the fetched bytes begin with the bytes of some instruction. -/
theorem exists_prefix_of_mem {f : Fetched} (h : f.opcode ∈ opcodeBytes) : ∃ i, encode i <+: f.bytes := by
  obtain ⟨op, a, b⟩ := f
  rw [mem_opcodeBytes] at h
  rcases h with h | h | h | h | h | h | h | h | h | h | h | h | h <;> simp only at h <;> subst h
  · exact ⟨.ldi a b, [], rfl⟩
  · exact ⟨.prn a, [b], rfl⟩
  · exact ⟨.hlt, [a, b], rfl⟩
  · exact ⟨.mul a b, [], rfl⟩
  · exact ⟨.add a b, [], rfl⟩
  · exact ⟨.cmp a b, [], rfl⟩
  · exact ⟨.jmp a, [b], rfl⟩
  · exact ⟨.jeq a, [b], rfl⟩
  · exact ⟨.jne a, [b], rfl⟩
  · exact ⟨.push a, [b], rfl⟩
  · exact ⟨.pop a, [b], rfl⟩
  · exact ⟨.call a, [b], rfl⟩
  · exact ⟨.ret, [a, b], rfl⟩

/-- Inversion of the decoder: it answers `i` exactly when the fetched bytes begin with `i`'s own. -/
theorem decode_eq_ok {f : Fetched} {i : Instr} : decode f = .ok i ↔ encode i <+: f.bytes := by
  refine ⟨fun h => ?_, decode_of_prefix⟩
  by_cases hm : f.opcode ∈ opcodeBytes
  · obtain ⟨j, hj⟩ := exists_prefix_of_mem hm
    rw [decode_of_prefix hj] at h
    cases h
    exact hj
  · rw [decode_error_of_notMem hm] at h
    cases h

theorem opcode_of_decode {f : Fetched} {i : Instr} (h : decode f = .ok i) : f.opcode = i.opcode := by
  obtain ⟨operands, he⟩ := encode_eq_cons i
  rw [decode_eq_ok, he, Fetched.bytes, List.cons_prefix_cons] at h
  exact h.1.symm

/-- The decoder refuses exactly the other 243 opcode bytes, by name. -/
theorem decode_eq_error {f : Fetched} {e : DecodeError} :
    decode f = .error e ↔ f.opcode ∉ opcodeBytes ∧ e = .unknownOpcode f.opcode := by
  constructor
  · intro h
    by_cases hm : f.opcode ∈ opcodeBytes
    · obtain ⟨j, hj⟩ := exists_prefix_of_mem hm
      rw [decode_of_prefix hj] at h
      cases h
    · rw [decode_error_of_notMem hm] at h
      cases h
      exact ⟨hm, rfl⟩
  · rintro ⟨h, rfl⟩
    exact decode_error_of_notMem h

theorem decode_ok_of_mem {f : Fetched} (h : f.opcode ∈ opcodeBytes) : ∃ i, decode f = .ok i := by
  obtain ⟨i, hi⟩ := exists_prefix_of_mem h
  exact ⟨i, decode_of_prefix hi⟩

/-- R95 and R91 agree: the length of the encoding is 1 + the two high bits of its opcode byte. -/
theorem encode_length (i : Instr) : (encode i).length = 1 + operandCount i.opcode := by
  cases i <;> simp only [encode, Instr.opcode] <;> rfl

/-- `opcode >> 6` as a quotient. -/
theorem operandCount_eq_div (b : Byte) : operandCount b = b.toNat / 64 := by
  rw [operandCount, BitVec.toNat_ushiftRight, Nat.shiftRight_eq_div_pow]

/-- The view by spec/opcode_table.json's bit numbering is the decoder's answer on the same bytes. -/
theorem decodeTableWord_eq_some {nbits w : Nat} {i : Instr} :
    decodeTableWord nbits w = some i ↔ decode (tableFetched nbits w) = .ok i := by
  unfold decodeTableWord
  cases decode (tableFetched nbits w) <;> simp

end Sys2Proof
end

