-- ==== Sys2Proof/Laws/Operands.lean ====
section
/-!
SUPPORT. Laws of the operand forms: which register a byte names, and everything an operation under the index check can do.
-/

namespace Sys2Proof.Machine

theorem regIndex_eq_some {b : Byte} {r : RegIdx} : regIndex b = some r ↔ b.toNat = r.val := by
  have := r.isLt
  unfold regIndex
  split
  · simp [Fin.ext_iff]
  · simp; omega

theorem regIndex_eq_none {b : Byte} : regIndex b = none ↔ 7 < b.toNat := by
  unfold regIndex
  split <;> simp <;> omega

theorem isRegByte_iff {b : Byte} : isRegByte b = true ↔ ∃ r : RegIdx, b.toNat = r.val := by
  simp only [isRegByte, decide_eq_true_eq]
  exact ⟨fun h => ⟨⟨b.toNat, h⟩, rfl⟩, fun ⟨r, hr⟩ => hr ▸ r.isLt⟩

theorem isRegByte_eq_false {b : Byte} : isRegByte b = false ↔ 7 < b.toNat := by
  rw [isRegByte, decide_eq_false_iff_not, Config.nreg]; omega

/-- An operand byte either names a register or is above 7. -/
theorem names_or_bad (b : Byte) : (∃ r : RegIdx, b.toNat = r.val) ∨ 7 < b.toNat := by
  rcases Nat.lt_or_ge b.toNat 8 with h | h
  · exact .inl ⟨⟨b.toNat, h⟩, rfl⟩
  · exact .inr h

variable {opcode b : Byte} {s t : State} {k : RegIdx → Result}

theorem withReg_of_names {r : RegIdx} (h : b.toNat = r.val) : withReg opcode b s k = k r := by
  rw [withReg, regIndex_eq_some.mpr h]

theorem withReg_of_bad (h : 7 < b.toNat) : withReg opcode b s k = .next (s.raise .badRegIndex opcode) := by
  rw [withReg, regIndex_eq_none.mpr h]

/-- Everything an operation under the index check can answer. -/
theorem withReg_eq_next (h : withReg opcode b s k = .next t) :
    (∃ r : RegIdx, b.toNat = r.val ∧ k r = .next t) ∨ (7 < b.toNat ∧ t = s.raise .badRegIndex opcode) := by
  rcases names_or_bad b with ⟨r, hr⟩ | hb
  · exact .inl ⟨r, hr, by rwa [withReg_of_names hr] at h⟩
  · rw [withReg_of_bad hb] at h
    cases h
    exact .inr ⟨hb, rfl⟩

end Sys2Proof.Machine
end

