-- ==== Sys2Proof/Laws/Memory.lean ====
section
/-!
SUPPORT. Laws of the memory: read after write, the canonical form is kept, a canonical memory is determined by its bytes,
and the memory of an image reads as the image.
-/

namespace Sys2Proof.Machine.Memory

/-! ### Lists of cells -/

theorem readAt_of_wfFrom {m : Memory} {lo a : Nat} (h : wfFrom lo m = true) (ha : a < lo) :
    readAt m a = Config.unlistedByte := by
  induction m generalizing lo with
  | nil => rfl
  | cons c rest ih =>
    obtain ⟨k, v⟩ := c
    simp only [wfFrom, Bool.and_eq_true, decide_eq_true_eq] at h
    obtain ⟨⟨⟨hk, -⟩, -⟩, hr⟩ := h
    rw [readAt, if_neg (by omega), ih hr (by omega)]

theorem wfFrom_mono {m : Memory} {lo lo' : Nat} (h : wfFrom lo m = true) (hl : lo' ≤ lo) : wfFrom lo' m = true := by
  cases m with
  | nil => rfl
  | cons c rest =>
    simp only [wfFrom, Bool.and_eq_true, decide_eq_true_eq] at h ⊢
    exact ⟨⟨⟨by omega, h.1.1.2⟩, h.1.2⟩, h.2⟩

theorem readAt_writeAt_ne (m : Memory) {a a' : Nat} (b : Byte) (h : a' ≠ a) :
    readAt (writeAt m a b) a' = readAt m a' := by
  induction m with
  | nil => by_cases hb : b = Config.unlistedByte <;> simp [writeAt, readAt, hb, Ne.symm h]
  | cons c rest ih =>
    obtain ⟨k, v⟩ := c
    rcases Nat.lt_trichotomy k a with hk | rfl | hk
    · simp [writeAt, hk, readAt, ih]
    · by_cases hb : b = Config.unlistedByte <;> simp [writeAt, readAt, hb, Ne.symm h]
    · by_cases hb : b = Config.unlistedByte <;>
        simp [writeAt, readAt, hb, Nat.not_lt.mpr (Nat.le_of_lt hk), Nat.ne_of_gt hk, Ne.symm h]

theorem readAt_writeAt_self {m : Memory} {lo a : Nat} (b : Byte) (h : wfFrom lo m = true) :
    readAt (writeAt m a b) a = b := by
  induction m generalizing lo with
  | nil => by_cases hb : b = Config.unlistedByte <;> simp [writeAt, readAt, hb]
  | cons c rest ih =>
    obtain ⟨k, v⟩ := c
    simp only [wfFrom, Bool.and_eq_true, decide_eq_true_eq] at h
    obtain ⟨-, hr⟩ := h
    rcases Nat.lt_trichotomy k a with hk | rfl | hk
    · simp [writeAt, hk, readAt, Nat.ne_of_lt hk, ih hr]
    · by_cases hb : b = Config.unlistedByte
      · simp [writeAt, hb, readAt_of_wfFrom hr (Nat.lt_succ_self k)]
      · simp [writeAt, hb, readAt]
    · by_cases hb : b = Config.unlistedByte
      · simp [writeAt, readAt, hb, Nat.not_lt.mpr (Nat.le_of_lt hk), Nat.ne_of_gt hk,
          readAt_of_wfFrom hr (Nat.lt_succ_of_lt hk)]
      · simp [writeAt, readAt, hb, Nat.not_lt.mpr (Nat.le_of_lt hk), Nat.ne_of_gt hk]

theorem wfFrom_writeAt {m : Memory} {lo a : Nat} (b : Byte) (h : wfFrom lo m = true) (hl : lo ≤ a)
    (ha : a < Config.memSize) : wfFrom lo (writeAt m a b) = true := by
  induction m generalizing lo with
  | nil => by_cases hb : b = Config.unlistedByte <;> simp [writeAt, wfFrom, hb, hl, ha]
  | cons c rest ih =>
    obtain ⟨k, v⟩ := c
    simp only [wfFrom, Bool.and_eq_true, decide_eq_true_eq] at h
    obtain ⟨⟨⟨hlk, hk256⟩, hv⟩, hr⟩ := h
    rcases Nat.lt_trichotomy k a with hk | rfl | hk
    · simp only [writeAt, hk, if_true, wfFrom, Bool.and_eq_true, decide_eq_true_eq]
      exact ⟨⟨⟨hlk, hk256⟩, hv⟩, ih hr hk⟩
    · by_cases hb : b = Config.unlistedByte
      · simpa [writeAt, hb] using wfFrom_mono hr (Nat.le_succ_of_le hlk)
      · simp [writeAt, hb, wfFrom, hl, ha, hr]
    · by_cases hb : b = Config.unlistedByte
      · simp [writeAt, hb, Nat.not_lt.mpr (Nat.le_of_lt hk), Nat.ne_of_gt hk, wfFrom, hlk, hk256, hr]
        simpa using hv
      · simp [writeAt, hb, Nat.not_lt.mpr (Nat.le_of_lt hk), Nat.ne_of_gt hk, wfFrom, hl, ha, hk256, hr,
          Nat.succ_le_of_lt hk]
        simpa using hv

/-- The first cell of a canonical list: its byte is what its address reads as, and the rest is canonical above it. -/
theorem wfFrom_cons {k lo : Nat} {v : Byte} {rest : Memory} (h : wfFrom lo ((k, v) :: rest) = true) :
    v ≠ Config.unlistedByte ∧ k < Config.memSize ∧ wfFrom (k + 1) rest = true := by
  simp only [wfFrom, Bool.and_eq_true, decide_eq_true_eq, Bool.not_eq_true', decide_eq_false_iff_not] at h
  exact ⟨h.1.2, h.1.1.2, h.2⟩

theorem readAt_cons_self (k : Nat) (v : Byte) (rest : Memory) : readAt ((k, v) :: rest) k = v := by simp [readAt]

theorem readAt_cons_ne {k a : Nat} (v : Byte) (rest : Memory) (h : k ≠ a) :
    readAt ((k, v) :: rest) a = readAt rest a := by simp [readAt, h]

/-- Two canonical lists with the same bytes are the same list. -/
theorem eq_of_readAt_eq {m m' : Memory} {lo : Nat} (h : wfFrom lo m = true) (h' : wfFrom lo m' = true)
    (hr : ∀ a < Config.memSize, readAt m a = readAt m' a) : m = m' := by
  induction m generalizing lo m' with
  | nil =>
    cases m' with
    | nil => rfl
    | cons c' rest' =>
      obtain ⟨hne, hk, -⟩ := wfFrom_cons h'
      exact absurd ((hr c'.1 hk).trans (readAt_cons_self ..)).symm hne
  | cons c rest ih =>
    obtain ⟨k, v⟩ := c
    obtain ⟨hne, hk, hw⟩ := wfFrom_cons h
    cases m' with
    | nil => exact absurd ((hr k hk).symm.trans (readAt_cons_self ..)).symm hne
    | cons c' rest' =>
      obtain ⟨k', v'⟩ := c'
      obtain ⟨hne', hk', hw'⟩ := wfFrom_cons h'
      have hkk : k = k' := by
        rcases Nat.lt_trichotomy k k' with hlt | heq | hlt
        · have := hr k hk
          rw [readAt_cons_self, readAt_cons_ne _ _ (by omega), readAt_of_wfFrom hw' (by omega)] at this
          exact absurd this hne
        · exact heq
        · have := hr k' hk'
          rw [readAt_cons_self, readAt_cons_ne _ _ (by omega), readAt_of_wfFrom hw (by omega)] at this
          exact absurd this.symm hne'
      subst hkk
      have hv : v = v' := by simpa [readAt_cons_self] using hr k hk
      subst hv
      have htail : ∀ a < Config.memSize, readAt rest a = readAt rest' a := by
        intro a ha
        by_cases hka : a < k + 1
        · rw [readAt_of_wfFrom hw hka, readAt_of_wfFrom hw' hka]
        · have := hr a ha
          rwa [readAt_cons_ne _ _ (by omega), readAt_cons_ne _ _ (by omega)] at this
      rw [ih hw hw' htail]

/-! ### Bytes at 8-bit addresses -/

@[simp] theorem read_nil (a : Byte) : read [] a = Config.unlistedByte := rfl

theorem read_write_self {m : Memory} (a b : Byte) (h : m.wf = true) : (m.write a b).read a = b :=
  readAt_writeAt_self b h

theorem read_write_ne (m : Memory) {a a' : Byte} (b : Byte) (h : a' ≠ a) : (m.write a b).read a' = m.read a' :=
  readAt_writeAt_ne m b (fun e => h (BitVec.eq_of_toNat_eq e))

theorem read_write {m : Memory} (a b a' : Byte) (h : m.wf = true) :
    (m.write a b).read a' = if a' = a then b else m.read a' := by
  split
  · next e => rw [e, read_write_self a b h]
  · next e => exact read_write_ne m b e

@[simp] theorem wf_nil : Memory.wf [] = true := rfl

/-- A write keeps the canonical form. -/
theorem wf_write {m : Memory} (a b : Byte) (h : m.wf = true) : (m.write a b).wf = true :=
  wfFrom_writeAt b h (Nat.zero_le _) a.isLt

/-- Equal memories are equal data. -/
theorem eq_of_read_eq {m m' : Memory} (h : m.wf = true) (h' : m'.wf = true) (hr : ∀ a : Byte, m.read a = m'.read a) :
    m = m' :=
  eq_of_readAt_eq h h' fun a ha => by
    have := hr (BitVec.ofNat 8 a)
    rwa [read, read, BitVec.toNat_ofNat, Nat.mod_eq_of_lt (show a < 2 ^ 8 from ha)] at this

/-! ### Several writes, and the memory of an image -/

theorem wf_writeAll {m : Memory} (l : List (Byte × Byte)) (h : m.wf = true) : (m.writeAll l).wf = true := by
  induction l generalizing m with
  | nil => exact h
  | cons c rest ih => exact ih (wf_write c.1 c.2 h)

theorem read_writeAll_of_notMem (m : Memory) {l : List (Byte × Byte)} {a : Byte} (h : a ∉ l.map Prod.fst) :
    (m.writeAll l).read a = m.read a := by
  induction l generalizing m with
  | nil => rfl
  | cons c rest ih =>
    simp only [List.map_cons, List.mem_cons, not_or] at h
    rw [writeAll, ih _ h.2, read_write_ne _ _ h.1]

theorem read_writeAll_of_mem {m : Memory} {image : Byte → Byte} {l : List Byte} {a : Byte} (hw : m.wf = true)
    (h : a ∈ l) : (m.writeAll (l.map fun k => (k, image k))).read a = image a := by
  induction l generalizing m with
  | nil => cases h
  | cons k rest ih =>
    by_cases hr : a ∈ rest
    · exact ih (wf_write k (image k) hw) hr
    · have hk : a = k := by simpa [hr] using h
      subst hk
      have : a ∉ (rest.map fun k => (k, image k)).map Prod.fst := by simpa using hr
      rw [List.map_cons, writeAll, read_writeAll_of_notMem _ this, read_write_self _ _ hw]

theorem wf_ofImage (image : Byte → Byte) : (ofImage image).wf = true := wf_writeAll _ wf_nil

theorem read_ofImage (image : Byte → Byte) (a : Byte) : (ofImage image).read a = image a := by
  have hl : ofImage image =
      Memory.writeAll [] (((List.range Config.memSize).map (BitVec.ofNat 8)).map fun k => (k, image k)) := by
    simp [ofImage, List.map_map, Function.comp_def]
  rw [hl]
  refine read_writeAll_of_mem wf_nil (List.mem_map.mpr ⟨a.toNat, List.mem_range.mpr a.isLt, ?_⟩)
  simp

end Sys2Proof.Machine.Memory
end

