-- ==== Sys2Proof/Laws/State.lean ====
section
/-!
SUPPORT. Laws of the operations on the state: for each update, what every field reads as after it; then what a register and
a byte of memory read as after it.
-/

namespace Sys2Proof.Machine

variable (s : State)

/-! ### `State.setReg` -/

@[simp] theorem State.setReg_regs (r : RegIdx) (v : Int) : (s.setReg r v).regs = s.regs.set r (wrap v) := rfl
@[simp] theorem State.setReg_pc (r : RegIdx) (v : Int) : (s.setReg r v).pc = s.pc := rfl
@[simp] theorem State.setReg_flags (r : RegIdx) (v : Int) : (s.setReg r v).flags = s.flags := rfl
@[simp] theorem State.setReg_run (r : RegIdx) (v : Int) : (s.setReg r v).run = s.run := rfl
@[simp] theorem State.setReg_haltCause (r : RegIdx) (v : Int) : (s.setReg r v).haltCause = s.haltCause := rfl
@[simp] theorem State.setReg_diagAddr (r : RegIdx) (v : Int) : (s.setReg r v).diagAddr = s.diagAddr := rfl
@[simp] theorem State.setReg_diagOpcode (r : RegIdx) (v : Int) : (s.setReg r v).diagOpcode = s.diagOpcode := rfl
@[simp] theorem State.setReg_mem (r : RegIdx) (v : Int) : (s.setReg r v).mem = s.mem := rfl
@[simp] theorem State.setReg_out (r : RegIdx) (v : Int) : (s.setReg r v).out = s.out := rfl

/-! ### `State.memWrite` -/

@[simp] theorem State.memWrite_regs (addr : Int) (v : Byte) : (s.memWrite addr v).regs = s.regs := rfl
@[simp] theorem State.memWrite_pc (addr : Int) (v : Byte) : (s.memWrite addr v).pc = s.pc := rfl
@[simp] theorem State.memWrite_flags (addr : Int) (v : Byte) : (s.memWrite addr v).flags = s.flags := rfl
@[simp] theorem State.memWrite_run (addr : Int) (v : Byte) : (s.memWrite addr v).run = s.run := rfl
@[simp] theorem State.memWrite_haltCause (addr : Int) (v : Byte) : (s.memWrite addr v).haltCause = s.haltCause := rfl
@[simp] theorem State.memWrite_diagAddr (addr : Int) (v : Byte) : (s.memWrite addr v).diagAddr = s.diagAddr := rfl
@[simp] theorem State.memWrite_diagOpcode (addr : Int) (v : Byte) : (s.memWrite addr v).diagOpcode = s.diagOpcode := rfl
@[simp] theorem State.memWrite_mem (addr : Int) (v : Byte) : (s.memWrite addr v).mem = s.mem.write (wrap addr) v := rfl
@[simp] theorem State.memWrite_out (addr : Int) (v : Byte) : (s.memWrite addr v).out = s.out := rfl

/-! ### `State.setFlags` -/

@[simp] theorem State.setFlags_regs (f : Flags) : (s.setFlags f).regs = s.regs := rfl
@[simp] theorem State.setFlags_pc (f : Flags) : (s.setFlags f).pc = s.pc := rfl
@[simp] theorem State.setFlags_flags (f : Flags) : (s.setFlags f).flags = f := rfl
@[simp] theorem State.setFlags_run (f : Flags) : (s.setFlags f).run = s.run := rfl
@[simp] theorem State.setFlags_haltCause (f : Flags) : (s.setFlags f).haltCause = s.haltCause := rfl
@[simp] theorem State.setFlags_diagAddr (f : Flags) : (s.setFlags f).diagAddr = s.diagAddr := rfl
@[simp] theorem State.setFlags_diagOpcode (f : Flags) : (s.setFlags f).diagOpcode = s.diagOpcode := rfl
@[simp] theorem State.setFlags_mem (f : Flags) : (s.setFlags f).mem = s.mem := rfl
@[simp] theorem State.setFlags_out (f : Flags) : (s.setFlags f).out = s.out := rfl

/-! ### `State.output` -/

@[simp] theorem State.output_regs (v : Byte) : (s.output v).regs = s.regs := rfl
@[simp] theorem State.output_pc (v : Byte) : (s.output v).pc = s.pc := rfl
@[simp] theorem State.output_flags (v : Byte) : (s.output v).flags = s.flags := rfl
@[simp] theorem State.output_run (v : Byte) : (s.output v).run = s.run := rfl
@[simp] theorem State.output_haltCause (v : Byte) : (s.output v).haltCause = s.haltCause := rfl
@[simp] theorem State.output_diagAddr (v : Byte) : (s.output v).diagAddr = s.diagAddr := rfl
@[simp] theorem State.output_diagOpcode (v : Byte) : (s.output v).diagOpcode = s.diagOpcode := rfl
@[simp] theorem State.output_mem (v : Byte) : (s.output v).mem = s.mem := rfl
@[simp] theorem State.output_out (v : Byte) : (s.output v).out = s.out ++ [v] := rfl

/-! ### `State.setPc` -/

@[simp] theorem State.setPc_regs (target : Int) : (s.setPc target).regs = s.regs := rfl
@[simp] theorem State.setPc_pc (target : Int) : (s.setPc target).pc = wrap target := rfl
@[simp] theorem State.setPc_flags (target : Int) : (s.setPc target).flags = s.flags := rfl
@[simp] theorem State.setPc_run (target : Int) : (s.setPc target).run = s.run := rfl
@[simp] theorem State.setPc_haltCause (target : Int) : (s.setPc target).haltCause = s.haltCause := rfl
@[simp] theorem State.setPc_diagAddr (target : Int) : (s.setPc target).diagAddr = s.diagAddr := rfl
@[simp] theorem State.setPc_diagOpcode (target : Int) : (s.setPc target).diagOpcode = s.diagOpcode := rfl
@[simp] theorem State.setPc_mem (target : Int) : (s.setPc target).mem = s.mem := rfl
@[simp] theorem State.setPc_out (target : Int) : (s.setPc target).out = s.out := rfl

/-! ### `State.advance` -/

@[simp] theorem State.advance_regs (opcode : Byte) : (s.advance opcode).regs = s.regs := rfl
@[simp] theorem State.advance_pc (opcode : Byte) : (s.advance opcode).pc = wrap ((s.pc.toNat : Int) + 1 + (operandCount opcode : Int)) := rfl
@[simp] theorem State.advance_flags (opcode : Byte) : (s.advance opcode).flags = s.flags := rfl
@[simp] theorem State.advance_run (opcode : Byte) : (s.advance opcode).run = s.run := rfl
@[simp] theorem State.advance_haltCause (opcode : Byte) : (s.advance opcode).haltCause = s.haltCause := rfl
@[simp] theorem State.advance_diagAddr (opcode : Byte) : (s.advance opcode).diagAddr = s.diagAddr := rfl
@[simp] theorem State.advance_diagOpcode (opcode : Byte) : (s.advance opcode).diagOpcode = s.diagOpcode := rfl
@[simp] theorem State.advance_mem (opcode : Byte) : (s.advance opcode).mem = s.mem := rfl
@[simp] theorem State.advance_out (opcode : Byte) : (s.advance opcode).out = s.out := rfl

/-! ### `State.haltNormally` -/

@[simp] theorem State.haltNormally_regs : (s.haltNormally).regs = s.regs := rfl
@[simp] theorem State.haltNormally_pc : (s.haltNormally).pc = s.pc := rfl
@[simp] theorem State.haltNormally_flags : (s.haltNormally).flags = s.flags := rfl
@[simp] theorem State.haltNormally_run : (s.haltNormally).run = .halted := rfl
@[simp] theorem State.haltNormally_haltCause : (s.haltNormally).haltCause = .hlt := rfl
@[simp] theorem State.haltNormally_diagAddr : (s.haltNormally).diagAddr = s.diagAddr := rfl
@[simp] theorem State.haltNormally_diagOpcode : (s.haltNormally).diagOpcode = s.diagOpcode := rfl
@[simp] theorem State.haltNormally_mem : (s.haltNormally).mem = s.mem := rfl
@[simp] theorem State.haltNormally_out : (s.haltNormally).out = s.out := rfl

/-! ### `State.raise` -/

@[simp] theorem State.raise_regs (c : HaltCause) (opcode : Byte) : (s.raise c opcode).regs = s.regs := rfl
@[simp] theorem State.raise_pc (c : HaltCause) (opcode : Byte) : (s.raise c opcode).pc = s.pc := rfl
@[simp] theorem State.raise_flags (c : HaltCause) (opcode : Byte) : (s.raise c opcode).flags = s.flags := rfl
@[simp] theorem State.raise_run (c : HaltCause) (opcode : Byte) : (s.raise c opcode).run = .halted := rfl
@[simp] theorem State.raise_haltCause (c : HaltCause) (opcode : Byte) : (s.raise c opcode).haltCause = c := rfl
@[simp] theorem State.raise_diagAddr (c : HaltCause) (opcode : Byte) : (s.raise c opcode).diagAddr = s.pc := rfl
@[simp] theorem State.raise_diagOpcode (c : HaltCause) (opcode : Byte) : (s.raise c opcode).diagOpcode = opcode := rfl
@[simp] theorem State.raise_mem (c : HaltCause) (opcode : Byte) : (s.raise c opcode).mem = s.mem := rfl
@[simp] theorem State.raise_out (c : HaltCause) (opcode : Byte) : (s.raise c opcode).out = s.out := rfl

/-! ### `State.hostReset` -/

@[simp] theorem State.hostReset_regs : (s.hostReset).regs = State.reset.regs := rfl
@[simp] theorem State.hostReset_pc : (s.hostReset).pc = Config.pcReset := rfl
@[simp] theorem State.hostReset_flags : (s.hostReset).flags = State.reset.flags := rfl
@[simp] theorem State.hostReset_run : (s.hostReset).run = .running := rfl
@[simp] theorem State.hostReset_haltCause : (s.hostReset).haltCause = .none := rfl
@[simp] theorem State.hostReset_diagAddr : (s.hostReset).diagAddr = 0#8 := rfl
@[simp] theorem State.hostReset_diagOpcode : (s.hostReset).diagOpcode = 0#8 := rfl
@[simp] theorem State.hostReset_mem : (s.hostReset).mem = s.mem := rfl
@[simp] theorem State.hostReset_out : (s.hostReset).out = [] := rfl

/-! ### `State.decSp` -/

@[simp] theorem State.decSp_regs : (s.decSp).regs = s.regs.set Config.spIdx (wrap ((s.sp.toNat : Int) - 1)) := rfl
@[simp] theorem State.decSp_pc : (s.decSp).pc = s.pc := rfl
@[simp] theorem State.decSp_flags : (s.decSp).flags = s.flags := rfl
@[simp] theorem State.decSp_run : (s.decSp).run = s.run := rfl
@[simp] theorem State.decSp_haltCause : (s.decSp).haltCause = s.haltCause := rfl
@[simp] theorem State.decSp_diagAddr : (s.decSp).diagAddr = s.diagAddr := rfl
@[simp] theorem State.decSp_diagOpcode : (s.decSp).diagOpcode = s.diagOpcode := rfl
@[simp] theorem State.decSp_mem : (s.decSp).mem = s.mem := rfl
@[simp] theorem State.decSp_out : (s.decSp).out = s.out := rfl

/-! ### `State.incSp` -/

@[simp] theorem State.incSp_regs : (s.incSp).regs = s.regs.set Config.spIdx (wrap ((s.sp.toNat : Int) + 1)) := rfl
@[simp] theorem State.incSp_pc : (s.incSp).pc = s.pc := rfl
@[simp] theorem State.incSp_flags : (s.incSp).flags = s.flags := rfl
@[simp] theorem State.incSp_run : (s.incSp).run = s.run := rfl
@[simp] theorem State.incSp_haltCause : (s.incSp).haltCause = s.haltCause := rfl
@[simp] theorem State.incSp_diagAddr : (s.incSp).diagAddr = s.diagAddr := rfl
@[simp] theorem State.incSp_diagOpcode : (s.incSp).diagOpcode = s.diagOpcode := rfl
@[simp] theorem State.incSp_mem : (s.incSp).mem = s.mem := rfl
@[simp] theorem State.incSp_out : (s.incSp).out = s.out := rfl

/-! ### Reading a register -/

/-- The cells are independent (R21): a write changes the register written and no other. -/
theorem RegFile.get_set (f : RegFile) (r r' : RegIdx) (v : Byte) :
    (f.set r v).get r' = if r' = r then v else f.get r' := by
  fin_cases r <;> fin_cases r' <;> rfl

theorem RegFile.get_set_self (f : RegFile) (r : RegIdx) (v : Byte) : (f.set r v).get r = v := by simp [RegFile.get_set]

theorem RegFile.get_set_ne (f : RegFile) {r r' : RegIdx} (v : Byte) (h : r' ≠ r) : (f.set r v).get r' = f.get r' := by
  simp [RegFile.get_set, h]

theorem State.setReg_reg (r r' : RegIdx) (v : Int) : (s.setReg r v).reg r' = if r' = r then wrap v else s.reg r' :=
  RegFile.get_set ..

@[simp] theorem State.setReg_reg_self (r : RegIdx) (v : Int) : (s.setReg r v).reg r = wrap v := by
  simp [State.setReg_reg]

theorem State.setReg_reg_ne {r r' : RegIdx} (v : Int) (h : r' ≠ r) : (s.setReg r v).reg r' = s.reg r' := by
  simp [State.setReg_reg, h]

theorem State.decSp_reg (r : RegIdx) : s.decSp.reg r = if r = Config.spIdx then s.sp - 1#8 else s.reg r := by
  rw [State.decSp, State.setReg_reg, wrap_sub_one]

theorem State.incSp_reg (r : RegIdx) : s.incSp.reg r = if r = Config.spIdx then s.sp + 1#8 else s.reg r := by
  rw [State.incSp, State.setReg_reg, wrap_add_one]

@[simp] theorem State.decSp_sp : s.decSp.sp = s.sp - 1#8 := by simp [State.sp, State.decSp_reg]

@[simp] theorem State.incSp_sp : s.incSp.sp = s.sp + 1#8 := by simp [State.sp, State.incSp_reg]

@[simp] theorem State.memWrite_reg (addr : Int) (v : Byte) (r : RegIdx) : (s.memWrite addr v).reg r = s.reg r := rfl
@[simp] theorem State.setFlags_reg (f : Flags) (r : RegIdx) : (s.setFlags f).reg r = s.reg r := rfl
@[simp] theorem State.output_reg (v : Byte) (r : RegIdx) : (s.output v).reg r = s.reg r := rfl
@[simp] theorem State.setPc_reg (target : Int) (r : RegIdx) : (s.setPc target).reg r = s.reg r := rfl
@[simp] theorem State.advance_reg (opcode : Byte) (r : RegIdx) : (s.advance opcode).reg r = s.reg r := rfl
@[simp] theorem State.haltNormally_reg (r : RegIdx) : (s.haltNormally).reg r = s.reg r := rfl
@[simp] theorem State.raise_reg (c : HaltCause) (opcode : Byte) (r : RegIdx) : (s.raise c opcode).reg r = s.reg r := rfl

@[simp] theorem State.memWrite_sp (addr : Int) (v : Byte) : (s.memWrite addr v).sp = s.sp := rfl
@[simp] theorem State.setFlags_sp (f : Flags) : (s.setFlags f).sp = s.sp := rfl
@[simp] theorem State.output_sp (v : Byte) : (s.output v).sp = s.sp := rfl
@[simp] theorem State.setPc_sp (target : Int) : (s.setPc target).sp = s.sp := rfl
@[simp] theorem State.advance_sp (opcode : Byte) : (s.advance opcode).sp = s.sp := rfl
@[simp] theorem State.haltNormally_sp : (s.haltNormally).sp = s.sp := rfl
@[simp] theorem State.raise_sp (c : HaltCause) (opcode : Byte) : (s.raise c opcode).sp = s.sp := rfl

/-! ### Reading a byte of memory -/

@[simp] theorem State.setReg_readByte (r : RegIdx) (v : Int) (a : Byte) : (s.setReg r v).readByte a = s.readByte a := rfl
@[simp] theorem State.setFlags_readByte (f : Flags) (a : Byte) : (s.setFlags f).readByte a = s.readByte a := rfl
@[simp] theorem State.output_readByte (v : Byte) (a : Byte) : (s.output v).readByte a = s.readByte a := rfl
@[simp] theorem State.setPc_readByte (target : Int) (a : Byte) : (s.setPc target).readByte a = s.readByte a := rfl
@[simp] theorem State.advance_readByte (opcode : Byte) (a : Byte) : (s.advance opcode).readByte a = s.readByte a := rfl
@[simp] theorem State.haltNormally_readByte (a : Byte) : (s.haltNormally).readByte a = s.readByte a := rfl
@[simp] theorem State.raise_readByte (c : HaltCause) (opcode : Byte) (a : Byte) : (s.raise c opcode).readByte a = s.readByte a := rfl
@[simp] theorem State.hostReset_readByte (a : Byte) : (s.hostReset).readByte a = s.readByte a := rfl
@[simp] theorem State.decSp_readByte (a : Byte) : (s.decSp).readByte a = s.readByte a := rfl
@[simp] theorem State.incSp_readByte (a : Byte) : (s.incSp).readByte a = s.readByte a := rfl

@[simp] theorem State.memRead_byte (a : Byte) : s.memRead a.toNat = s.readByte a := by simp [State.memRead]

theorem State.memWrite_readByte_self (addr : Int) (v : Byte) (h : s.mem.wf = true) :
    (s.memWrite addr v).readByte (wrap addr) = v :=
  Memory.read_write_self _ _ h

theorem State.memWrite_readByte_ne {addr : Int} (v : Byte) {a : Byte} (h : a ≠ wrap addr) :
    (s.memWrite addr v).readByte a = s.readByte a :=
  Memory.read_write_ne _ _ h

/-! ### The fetch unit -/

/-- The three addresses of a fetch (R122), as bytes. -/
theorem State.fetch_eq :
    s.fetch = { opcode := s.readByte s.pc, opA := s.readByte (s.pc + 1#8), opB := s.readByte (s.pc + 2#8) } := by
  simp [State.fetch, State.memRead, wrap_add_one, wrap_add_two]

theorem State.returnAddress_eq : s.returnAddress = s.pc + 2#8 := wrap_add_two _

@[simp] theorem State.decSp_returnAddress : s.decSp.returnAddress = s.returnAddress := rfl

theorem State.advance_pc_toNat (opcode : Byte) :
    (s.advance opcode).pc.toNat = (s.pc.toNat + (1 + operandCount opcode)) % 256 := by
  rw [State.advance_pc, wrap_toNat]; omega

end Sys2Proof.Machine
end

