-- ==== Sys2Proof/Laws/Exec.lean ====
section
/-!
SUPPORT. What executing one instruction can do, said once: the effect of every instruction whose register indices are good,
the fatal entry of every instruction with a bad one, and the inversion of `exec` into the two.
-/

namespace Sys2Proof.Machine

/-- `t` is what `i`, all its register indices being 0..7, makes of `s`, field by field: one clause per instruction rule. -/
def Effect (i : Instr) (s t : State) : Prop :=
  match i with
  | .ldi opA opB => ∃ r : RegIdx, opA.toNat = r.val ∧ t = { s with regs := s.regs.set r opB, pc := s.pc + 3#8 }
  | .prn opA => ∃ r : RegIdx, opA.toNat = r.val ∧ t = { s with out := s.out ++ [s.reg r], pc := s.pc + 2#8 }
  | .hlt => t = { s with run := .halted, haltCause := .hlt, pc := s.pc + 1#8 }
  | .mul opA opB => ∃ ra rb : RegIdx, opA.toNat = ra.val ∧ opB.toNat = rb.val ∧
      t = { s with regs := s.regs.set ra (s.reg ra * s.reg rb), pc := s.pc + 3#8 }
  | .add opA opB => ∃ ra rb : RegIdx, opA.toNat = ra.val ∧ opB.toNat = rb.val ∧
      t = { s with regs := s.regs.set ra (s.reg ra + s.reg rb), pc := s.pc + 3#8 }
  | .cmp opA opB => ∃ ra rb : RegIdx, opA.toNat = ra.val ∧ opB.toNat = rb.val ∧
      t = { s with flags := compareFlags (s.reg ra) (s.reg rb), pc := s.pc + 3#8 }
  | .jmp opA => ∃ r : RegIdx, opA.toNat = r.val ∧ t = { s with pc := s.reg r }
  | .jeq opA => ∃ r : RegIdx, opA.toNat = r.val ∧ t = { s with pc := if s.flags.e then s.reg r else s.pc + 2#8 }
  | .jne opA => ∃ r : RegIdx, opA.toNat = r.val ∧ t = { s with pc := if s.flags.e then s.pc + 2#8 else s.reg r }
  | .push opA => ∃ r : RegIdx, opA.toNat = r.val ∧
      t = { s with
            regs := s.regs.set Config.spIdx (s.sp - 1#8)
            mem := s.mem.write (s.sp - 1#8) (if r = Config.spIdx then s.sp - 1#8 else s.reg r)
            pc := s.pc + 2#8 }
  | .pop opA => ∃ r : RegIdx, opA.toNat = r.val ∧
      t = { s with
            regs := (s.regs.set r (s.readByte s.sp)).set Config.spIdx
              ((if r = Config.spIdx then s.readByte s.sp else s.sp) + 1#8)
            pc := s.pc + 2#8 }
  | .call opA => ∃ r : RegIdx, opA.toNat = r.val ∧
      t = { s with
            regs := s.regs.set Config.spIdx (s.sp - 1#8)
            mem := s.mem.write (s.sp - 1#8) (s.pc + 2#8)
            pc := if r = Config.spIdx then s.sp - 1#8 else s.reg r }
  | .ret => t = { s with pc := s.readByte s.sp }

variable {opcode : Byte} {i : Instr} {s t : State}

/-! ### The shared operations, field by field -/

theorem setReg_byte (r : RegIdx) (b : Byte) : s.setReg r b.toNat = { s with regs := s.regs.set r b } := by
  simp [State.setReg]

theorem setPc_byte (b : Byte) : s.setPc b.toNat = { s with pc := b } := by simp [State.setPc]

theorem decSp_eq : s.decSp = { s with regs := s.regs.set Config.spIdx (s.sp - 1#8) } := by
  simp only [State.decSp, State.setReg, wrap_sub_one]

theorem incSp_eq : s.incSp = { s with regs := s.regs.set Config.spIdx (s.sp + 1#8) } := by
  simp only [State.incSp, State.setReg, wrap_add_one]

theorem memWrite_byte (a v : Byte) : s.memWrite a.toNat v = { s with mem := s.mem.write a v } := by
  simp only [State.memWrite, wrap_byte]

/-- Auto-advance by the length of the opcode's format. -/
theorem advance_of_length {n : Nat} (h : 1 + operandCount opcode = n) :
    s.advance opcode = { s with pc := s.pc + BitVec.ofNat 8 n } := by
  have : (wrap ((s.pc.toNat : Int) + 1 + (operandCount opcode : Int))) = s.pc + BitVec.ofNat 8 n := by
    apply BitVec.eq_of_toNat_eq
    rw [wrap_toNat, BitVec.toNat_add, BitVec.toNat_ofNat]
    omega
  simp only [State.advance, State.setPc, this]

/-- A push: SP one down, the value computed after the decrement stored there. -/
theorem pushByte_eq (v : State → Byte) : pushByte v s =
    { s with
      regs := s.regs.set Config.spIdx (s.sp - 1#8)
      mem := s.mem.write (s.sp - 1#8) (v s.decSp) } := by
  rw [pushByte, memWrite_byte, State.decSp_sp, decSp_eq]

theorem alu_add (va vb : Byte) : alu aluAdd va vb = .result (va + vb) := by
  have : wrap ((va.toNat : Int) + vb.toNat) = va + vb := by
    apply BitVec.eq_of_toNat_eq
    rw [wrap_add_natCast_toNat, BitVec.toNat_add]
  simp [alu, this]

theorem alu_mul (va vb : Byte) : alu aluMul va vb = .result (va * vb) := by
  have : wrap ((va.toNat : Int) * vb.toNat) = va * vb := by
    apply BitVec.eq_of_toNat_eq
    rw [← Int.natCast_mul, wrap_natCast_toNat, BitVec.toNat_mul]
  simp [alu, aluAdd, aluMul, this]

theorem alu_cmp (va vb : Byte) : alu aluCmp va vb = .flags (compareFlags va vb) := rfl

/-- The ALU's error is answered for every operation select but the three (R174). -/
theorem alu_eq_err {op : BitVec 2} {va vb : Byte} : alu op va vb = .err ↔ op ≠ aluAdd ∧ op ≠ aluMul ∧ op ≠ aluCmp := by
  by_cases h1 : op = aluAdd
  · subst h1; simp [alu_add]
  · by_cases h2 : op = aluMul
    · subst h2; simp [alu_mul]
    · by_cases h3 : op = aluCmp
      · subst h3; simp [alu_cmp]
      · simp [alu, h1, h2, h3]

/-- CMP sets exactly one flag (R32). -/
theorem compareFlags_exclusive (va vb : Byte) :
    (compareFlags va vb).e.toNat + (compareFlags va vb).l.toNat + (compareFlags va vb).g.toNat = 1 := by
  rcases Nat.lt_trichotomy va.toNat vb.toNat with h | h | h
  · simp [compareFlags, h, Nat.ne_of_lt h, Nat.le_of_lt h]
  · simp [compareFlags, h]
  · simp [compareFlags, h, Nat.ne_of_gt h, Nat.le_of_lt h]

/-- An ALU instruction with two good indices. -/
theorem aluStep_of_names {op : BitVec 2} {opA opB : Byte} {ra rb : RegIdx} (ha : opA.toNat = ra.val)
    (hb : opB.toNat = rb.val) :
    aluStep op opcode opA opB s = .next (aluCommit opcode ra s (alu op (s.reg ra) (s.reg rb))) := by
  rw [aluStep, withReg_of_names ha, withReg_of_names hb]

/-- An ALU instruction with a bad index, whichever it is: the report is the same (R225). -/
theorem aluStep_of_bad {op : BitVec 2} {opA opB : Byte} (h : 7 < opA.toNat ∨ 7 < opB.toNat) :
    aluStep op opcode opA opB s = .next (s.raise .badRegIndex opcode) := by
  rcases names_or_bad opA with ⟨ra, ha⟩ | ha
  · rcases h with h | hb
    · exact absurd ha (by have := ra.isLt; omega)
    · rw [aluStep, withReg_of_names ha, withReg_of_bad hb]
  · rw [aluStep, withReg_of_bad ha]

/-! ### Every instruction -/

/-- A form with a bad register index takes BAD_REG_INDEX and has no other effect. -/
theorem exec_of_not_wf (h : i.wf = false) : exec i s = .next (s.raise .badRegIndex i.opcode) := by
  cases i <;> simp only [Instr.wf, Bool.and_eq_false_iff, isRegByte_eq_false, reduceCtorEq] at h <;>
    first | exact withReg_of_bad h | exact aluStep_of_bad h

/-- A form with good register indices has its effect. -/
theorem exec_of_effect (h : Effect i s t) : exec i s = .next t := by
  cases i <;> simp only [Effect] at h
  case ldi =>
    obtain ⟨r, hr, rfl⟩ := h
    rw [exec, execLdi, withReg_of_names hr, setReg_byte, advance_of_length (n := 3) rfl]
  case prn =>
    obtain ⟨r, hr, rfl⟩ := h
    rw [exec, execPrn, withReg_of_names hr, advance_of_length (n := 2) rfl]
    rfl
  case hlt =>
    subst h
    rw [exec, execHlt, advance_of_length (n := 1) rfl]
    rfl
  case mul =>
    obtain ⟨ra, rb, ha, hb, rfl⟩ := h
    rw [exec, execMul, aluStep_of_names ha hb, alu_mul, aluCommit, setReg_byte, advance_of_length (n := 3) rfl]
  case add =>
    obtain ⟨ra, rb, ha, hb, rfl⟩ := h
    rw [exec, execAdd, aluStep_of_names ha hb, alu_add, aluCommit, setReg_byte, advance_of_length (n := 3) rfl]
  case cmp =>
    obtain ⟨ra, rb, ha, hb, rfl⟩ := h
    rw [exec, execCmp, aluStep_of_names ha hb, alu_cmp, aluCommit, advance_of_length (n := 3) rfl]
    rfl
  case jmp =>
    obtain ⟨r, hr, rfl⟩ := h
    rw [exec, execJmp, withReg_of_names hr, jumpIf, if_pos rfl, setPc_byte]
  case jeq =>
    obtain ⟨r, hr, rfl⟩ := h
    rw [exec, execJeq, withReg_of_names hr, jumpIf, setPc_byte, advance_of_length (n := 2) rfl]
    split <;> rfl
  case jne =>
    obtain ⟨r, hr, rfl⟩ := h
    rw [exec, execJne, withReg_of_names hr, jumpIf, setPc_byte, advance_of_length (n := 2) rfl]
    cases s.flags.e <;> rfl
  case push =>
    obtain ⟨r, hr, rfl⟩ := h
    rw [exec, execPush, withReg_of_names hr, pushByte_eq, advance_of_length (n := 2) rfl]
    simp only [State.decSp_reg]
  case pop =>
    obtain ⟨r, hr, rfl⟩ := h
    rw [exec, execPop, withReg_of_names hr, State.memRead_byte, setReg_byte, incSp_eq, advance_of_length (n := 2) rfl]
    simp only [State.sp, State.reg, RegFile.get_set, eq_comm (a := r)]
  case call =>
    obtain ⟨r, hr, rfl⟩ := h
    rw [exec, execCall, withReg_of_names hr, pushByte_eq, State.jumpTo, setPc_byte]
    simp only [State.returnAddress_eq, State.decSp_pc, State.reg, RegFile.get_set]
  case ret =>
    subst h
    rw [exec, execRet, returnWith, Config.retPopsSp, if_neg (by decide), State.memRead_byte, setPc_byte]

/-- A well-formed instruction has an effect in every state. -/
theorem exists_effect (h : i.wf = true) (s : State) : ∃ t, Effect i s t := by
  cases i <;> simp only [Instr.wf, Bool.and_eq_true, isRegByte_iff] at h <;> simp only [Effect]
  case hlt | ret => exact ⟨_, rfl⟩
  case mul | add | cmp =>
    obtain ⟨⟨ra, ha⟩, rb, hb⟩ := h
    exact ⟨_, ra, rb, ha, hb, rfl⟩
  all_goals
    obtain ⟨r, hr⟩ := h
    exact ⟨_, r, hr, rfl⟩

/-- Inversion of `exec`: fatal entry on a bad register index, the instruction's effect otherwise. -/
theorem exec_eq_next (h : exec i s = .next t) :
    (i.wf = false ∧ t = s.raise .badRegIndex i.opcode) ∨ (i.wf = true ∧ Effect i s t) := by
  cases hw : i.wf
  · rw [exec_of_not_wf hw] at h
    cases h
    exact .inl ⟨rfl, rfl⟩
  · obtain ⟨u, hu⟩ := exists_effect hw s
    rw [exec_of_effect hu] at h
    cases h
    exact .inr ⟨rfl, hu⟩

/-- Executing an instruction always completes. -/
theorem exec_completes (i : Instr) (s : State) : ∃ t, exec i s = .next t := by
  cases hw : i.wf
  · exact ⟨_, exec_of_not_wf hw⟩
  · obtain ⟨t, ht⟩ := exists_effect hw s
    exact ⟨t, exec_of_effect ht⟩

end Sys2Proof.Machine
end

