-- ==== Sys2Proof/Laws/PerInstr.lean ====
section
/-!
SUPPORT. What holds of every instruction as syntax, one lemma per constructor.
-/

namespace Sys2Proof.Laws.OpcodeKnown

/-- The instruction's bytes start with its own opcode byte, that byte is one of the 13, and the number of operand bytes is
the one its two high bits name (R91, R94, R95). -/
def Statement (i : Instr) : Prop :=
  i.opcode ∈ opcodeBytes ∧ ∃ operands, encode i = i.opcode :: operands ∧ operands.length = operandCount i.opcode

/-- One operand list for each form. -/
theorem of_encode {i : Instr} {operands : List Byte} (h : encode i = i.opcode :: operands) : Statement i := by
  refine ⟨opcode_mem i, operands, h, ?_⟩
  have := encode_length i
  rw [h, List.length_cons] at this
  omega

theorem ldi (opA opB : Byte) : Statement (.ldi opA opB) := of_encode rfl
theorem prn (opA : Byte) : Statement (.prn opA) := of_encode rfl
theorem hlt : Statement .hlt := of_encode rfl
theorem mul (opA opB : Byte) : Statement (.mul opA opB) := of_encode rfl
theorem add (opA opB : Byte) : Statement (.add opA opB) := of_encode rfl
theorem cmp (opA opB : Byte) : Statement (.cmp opA opB) := of_encode rfl
theorem jmp (opA : Byte) : Statement (.jmp opA) := of_encode rfl
theorem jeq (opA : Byte) : Statement (.jeq opA) := of_encode rfl
theorem jne (opA : Byte) : Statement (.jne opA) := of_encode rfl
theorem push (opA : Byte) : Statement (.push opA) := of_encode rfl
theorem pop (opA : Byte) : Statement (.pop opA) := of_encode rfl
theorem call (opA : Byte) : Statement (.call opA) := of_encode rfl
theorem ret : Statement .ret := of_encode rfl

end Sys2Proof.Laws.OpcodeKnown
end

