-- ==== Sys2Proof/Laws/Step.lean ====
section
/-!
SUPPORT. What one step can do, said once.
-/

namespace Sys2Proof.Machine

variable {s t : State}

theorem step_of_halted (h : s.run = .halted) : step s = .next s := by simp [step, h, stepHalted]

theorem step_of_decode {i : Instr} (hr : s.run = .running) (hd : decode s.fetch = .ok i) : step s = exec i s := by
  simp [step, hr, hd]

theorem step_of_unknown (hr : s.run = .running) (h : s.fetch.opcode ∉ opcodeBytes) :
    step s = .next (s.raise .unknownOpcode s.fetch.opcode) := by
  simp [step, hr, decode_error_of_notMem h, takeDecodeError]

/-- Inversion of the step: nothing while HALTED, fatal entry on an unknown opcode, else one instruction, with the fatal
entry of a bad register index or with its effect. -/
theorem step_eq_next (h : step s = .next t) :
    (s.run = .halted ∧ t = s) ∨
    (s.run = .running ∧ s.fetch.opcode ∉ opcodeBytes ∧ t = s.raise .unknownOpcode s.fetch.opcode) ∨
    (s.run = .running ∧ ∃ i, decode s.fetch = .ok i ∧ i.wf = false ∧ t = s.raise .badRegIndex i.opcode) ∨
    (s.run = .running ∧ ∃ i, decode s.fetch = .ok i ∧ i.wf = true ∧ Effect i s t) := by
  cases hr : s.run with
  | halted =>
    rw [step_of_halted hr] at h
    cases h
    exact .inl ⟨rfl, rfl⟩
  | running =>
    by_cases hm : s.fetch.opcode ∈ opcodeBytes
    · obtain ⟨i, hi⟩ := decode_ok_of_mem hm
      rw [step_of_decode hr hi] at h
      rcases exec_eq_next h with ⟨hw, ht⟩ | ⟨hw, ht⟩
      · exact .inr (.inr (.inl ⟨rfl, i, hi, hw, ht⟩))
      · exact .inr (.inr (.inr ⟨rfl, i, hi, hw, ht⟩))
    · rw [step_of_unknown hr hm] at h
      cases h
      exact .inr (.inl ⟨rfl, hm, rfl⟩)

/-- A step always completes (R129). -/
theorem step_completes (s : State) : ∃ t, step s = .next t := by
  cases hr : s.run with
  | halted => exact ⟨_, step_of_halted hr⟩
  | running =>
    by_cases hm : s.fetch.opcode ∈ opcodeBytes
    · obtain ⟨i, hi⟩ := decode_ok_of_mem hm
      rw [step_of_decode hr hi]
      exact exec_completes i s
    · exact ⟨_, step_of_unknown hr hm⟩

end Sys2Proof.Machine
end

