-- ==== Sys2Proof/Laws/Safety.lean ====
section
/-!
SUPPORT. Laws of the terms the statements use, and what an instruction's effect does to each part of the state that most
instructions leave alone.
-/

namespace Sys2Proof

open Machine

/-- R96's ranges are the complement of R94's 13 bytes. -/
theorem unknownOpcodeByte_iff (b : Byte) : unknownOpcodeByte b.toNat = true ↔ b ∉ opcodeBytes := by
  revert b; decide

@[simp] theorem raise_eq_fatalState (s : State) (c : HaltCause) (opcode : Byte) :
    s.raise c opcode = fatalState s c opcode := rfl

theorem fetch_opcode (s : State) : s.fetch.opcode = s.readByte s.pc := by rw [State.fetch_eq]

/-- `SP` of a state whose register file had SP written last. -/
theorem sp_of_regs_set {s : State} {f : RegFile} {v : Byte} (h : s.regs = f.set Config.spIdx v) : s.sp = v := by
  rw [State.sp, State.reg, h, RegFile.get_set_self]

/-- A write of one register keeps the others. -/
theorem regsKept_of_regs_set {s t : State} {r : RegIdx} {v : Byte} (h : t.regs = s.regs.set r v) : RegsKept s t [r] := by
  intro r' hr'
  rw [State.reg, h, RegFile.get_set_ne _ _ (by simpa using hr'), State.reg]

/-- The host's `run` goes on from the step's next state. -/
theorem core_run_succ {s t : State} (n : Nat) (h : step s = .next t) : core.run (n + 1) s = core.run n t := by
  have h' : core.step s = .next t := h
  simp only [Host.Core.run, h']

@[simp] theorem powerOn_mem (memInit : Byte → Byte) : (State.powerOn memInit).mem = Memory.ofImage memInit := by
  rw [State.powerOn]

variable {i : Instr} {s t : State}

/-- Of the well-formed instructions only HLT changes the run state or the cause; none changes the report. -/
theorem effect_control (h : Effect i s t) :
    (i = .hlt ∧ t.run = .halted ∧ t.haltCause = .hlt ∨ t.run = s.run ∧ t.haltCause = s.haltCause) ∧
    t.diagAddr = s.diagAddr ∧ t.diagOpcode = s.diagOpcode := by
  cases i <;> simp only [Effect] at h
  case hlt => subst h; simp
  case ret => subst h; simp
  case mul | add | cmp => obtain ⟨_, _, _, _, rfl⟩ := h; simp
  all_goals obtain ⟨_, _, rfl⟩ := h; simp

/-- The flags after an instruction are those before it or a comparison's. -/
theorem effect_flags (h : Effect i s t) : t.flags = s.flags ∨ ∃ va vb, t.flags = compareFlags va vb := by
  cases i <;> simp only [Effect] at h
  case hlt | ret => subst h; exact .inl rfl
  case cmp => obtain ⟨_, _, _, _, rfl⟩ := h; exact .inr ⟨_, _, rfl⟩
  case mul | add => obtain ⟨_, _, _, _, rfl⟩ := h; exact .inl rfl
  all_goals obtain ⟨_, _, rfl⟩ := h; exact .inl rfl

/-- An instruction keeps the canonical form of the memory. -/
theorem effect_mem_wf (h : Effect i s t) (hw : s.mem.wf = true) : t.mem.wf = true := by
  cases i <;> simp only [Effect] at h
  case hlt | ret => subst h; exact hw
  case mul | add | cmp => obtain ⟨_, _, _, _, rfl⟩ := h; exact hw
  case push | call => obtain ⟨_, _, rfl⟩ := h; exact Memory.wf_write _ _ hw
  all_goals obtain ⟨_, _, rfl⟩ := h; exact hw

end Sys2Proof
end

