-- ==== Sys2Proof/Tests/Slice0.lean ====
section
/-!
SUPPORT. Tests. Expected results are the spec's own vectors (spec/95_test_vectors.md, the vector's name beside each test) and
its encodings (spec/30_encoding.md R94). The last part shows, for every statement with hypotheses, inputs that meet them.
-/

namespace Sys2Proof.Tests

open Machine

/-! ### WellFormed: one ill-formed term for each operand check -/

theorem smoke_ldi : ¬ (Instr.ldi 8#8 0#8).WellFormed := by decide
theorem smoke_prn : ¬ (Instr.prn 8#8).WellFormed := by decide
theorem smoke_mul_opA : ¬ (Instr.mul 8#8 0#8).WellFormed := by decide
theorem smoke_mul_opB : ¬ (Instr.mul 0#8 8#8).WellFormed := by decide
theorem smoke_add_opA : ¬ (Instr.add 8#8 0#8).WellFormed := by decide
theorem smoke_add_opB : ¬ (Instr.add 0#8 9#8).WellFormed := by decide
theorem smoke_cmp_opA : ¬ (Instr.cmp 255#8 0#8).WellFormed := by decide
theorem smoke_cmp_opB : ¬ (Instr.cmp 0#8 8#8).WellFormed := by decide
theorem smoke_jmp : ¬ (Instr.jmp 8#8).WellFormed := by decide
theorem smoke_jeq : ¬ (Instr.jeq 200#8).WellFormed := by decide
theorem smoke_jne : ¬ (Instr.jne 8#8).WellFormed := by decide
theorem smoke_push : ¬ (Instr.push 9#8).WellFormed := by decide
theorem smoke_pop : ¬ (Instr.pop 8#8).WellFormed := by decide
theorem smoke_call : ¬ (Instr.call 8#8).WellFormed := by decide

/-! ### Decode: a word of every row, its bits from R94's table -/

theorem test_decode_ldi : decode ⟨0b10011001#8, 0b00000101#8, 0b11111111#8⟩ = .ok (.ldi 5#8 255#8) := by decide
theorem test_decode_prn : decode ⟨0b01000011#8, 0b00000111#8, 0b00000001#8⟩ = .ok (.prn 7#8) := by decide
theorem test_decode_hlt : decode ⟨0b00000001#8, 0b11111111#8, 0b11111111#8⟩ = .ok .hlt := by decide
theorem test_decode_mul : decode ⟨0b10101010#8, 0b00000000#8, 0b00000001#8⟩ = .ok (.mul 0#8 1#8) := by decide
theorem test_decode_add : decode ⟨0b10101000#8, 0b00000010#8, 0b00000011#8⟩ = .ok (.add 2#8 3#8) := by decide
theorem test_decode_cmp : decode ⟨0b10100000#8, 0b00000100#8, 0b00000110#8⟩ = .ok (.cmp 4#8 6#8) := by decide
theorem test_decode_jmp : decode ⟨0b01010000#8, 0b00000011#8, 0#8⟩ = .ok (.jmp 3#8) := by decide
theorem test_decode_jeq : decode ⟨0b01010001#8, 0b11001000#8, 0#8⟩ = .ok (.jeq 200#8) := by decide
theorem test_decode_jne : decode ⟨0b01010010#8, 0b00000001#8, 0#8⟩ = .ok (.jne 1#8) := by decide
theorem test_decode_push : decode ⟨0b01001101#8, 0b00000111#8, 0#8⟩ = .ok (.push 7#8) := by decide
theorem test_decode_pop : decode ⟨0b01001100#8, 0b00000010#8, 0#8⟩ = .ok (.pop 2#8) := by decide
theorem test_decode_call : decode ⟨0b01001000#8, 0b00000001#8, 0#8⟩ = .ok (.call 1#8) := by decide
theorem test_decode_ret : decode ⟨0b00001001#8, 0b11111111#8, 0b11111111#8⟩ = .ok .ret := by decide

/-- V-F-3: 0xA2 is not MUL. -/
theorem test_decode_unknown : decode ⟨0xA2#8, 0#8, 1#8⟩ = .error (.unknownOpcode 0xA2#8) := by decide

/-- R99: an operand byte above 7 is decoded whole, not masked. -/
theorem test_decode_keeps_operand_bits : decode ⟨0xA8#8, 0x09#8, 0x0A#8⟩ = .ok (.add 9#8 10#8) := by decide

/-- The opcode table's numbering: byte `k` is bits `8k+7 .. 8k`, bits from `nbits` up are 0. -/
theorem test_decodeTableWord : decodeTableWord 24 0x080099 = some (.ldi 0#8 8#8) ∧
    decodeTableWord 8 0x99 = some (.ldi 0#8 0#8) ∧ decodeTableWord 16 0xFF0143 = some (.prn 1#8) := by decide

/-! ### One step from a small state -/

/-- The reset state with `code` at `pc`, and the registers, memory cells and flags named. -/
def start (pc : Byte) (code : List Byte) (regs : List (RegIdx × Byte)) (cells : List (Byte × Byte)) (flags : Flags) : State :=
  { State.reset with
    regs := regs.foldl (fun f c => f.set c.1 c.2) State.reset.regs
    pc := pc
    flags := flags
    mem := ((State.reset.loadFrom pc code).mem).writeAll cells }

def noFlags : Flags := ⟨false, false, false⟩
def flagE : Flags := ⟨true, false, false⟩
def flagL : Flags := ⟨false, true, false⟩
def flagG : Flags := ⟨false, false, true⟩

/-- The step answers a next state, and it satisfies `p`. -/
def after (s : State) (p : State → Bool) : Bool :=
  match step s with
  | .next t => p t
  | .fault _ => false
  | .refused _ => false

/-- V-LDI-4. -/
theorem test_ldi_writes_sp :
    after (start 0#8 [0x99#8, 7#8, 0x10#8] [] [] noFlags) (fun t => t.sp == 16#8 && t.pc == 3#8) = true := by decide

/-- V-LDI-7: fetch and advance wrap. -/
theorem test_ldi_fetch_wraps :
    after (start 254#8 [0x99#8, 2#8, 0x4D#8] [] [] noFlags) (fun t => t.reg 2 == 77#8 && t.pc == 1#8) = true := by decide

/-- V-PRN-2. -/
theorem test_prn_sp :
    after (start 0#8 [0x43#8, 7#8] [] [] noFlags) (fun t => t.out == [244#8] && t.pc == 2#8) = true := by decide

/-- V-PRN-5. -/
theorem test_prn_bad_index :
    after (start 0#8 [0x43#8, 8#8] [] [] noFlags)
      (fun t => t.haltCause.code == 4#3 && t.diagOpcode == 0x43#8 && t.out == [] && t.pc == 0#8) = true := by decide

/-- V-HLT-1. -/
theorem test_hlt :
    after (start 11#8 [1#8] [] [] noFlags)
      (fun t => t.run == .halted && t.haltCause.code == 1#3 && t.pc == 12#8 && t.diagAddr == 0#8) = true := by decide

/-- V-HLT-3. -/
theorem test_hlt_wraps :
    after (start 255#8 [1#8] [] [] noFlags) (fun t => t.run == .halted && t.pc == 0#8) = true := by decide

/-- V-ALU-2. -/
theorem test_mul_wraps :
    after (start 0#8 [0xAA#8, 0#8, 1#8] [(0, 255#8), (1, 255#8)] [] noFlags)
      (fun t => t.reg 0 == 1#8 && t.reg 1 == 255#8) = true := by decide

/-- V-ALU-18. -/
theorem test_mul_bad_opA :
    after (start 0#8 [0xAA#8, 8#8, 0#8] [] [] noFlags)
      (fun t => t.haltCause.code == 4#3 && t.diagOpcode == 0xAA#8 && t.pc == 0#8) = true := by decide

/-- V-ALU-20: no flag is derived from an ADD. -/
theorem test_add_wraps :
    after (start 0#8 [0xA8#8, 0#8, 1#8] [(0, 255#8), (1, 1#8)] [] flagG)
      (fun t => t.reg 0 == 0#8 && t.flags == flagG) = true := by decide

/-- V-ALU-17. -/
theorem test_add_bad_opB :
    after (start 0#8 [0xA8#8, 0#8, 9#8] [] [] noFlags)
      (fun t => t.haltCause.code == 4#3 && t.diagOpcode == 0xA8#8 && t.reg 0 == 0#8) = true := by decide

/-- V-CMP-7: no signed reading. -/
theorem test_cmp_unsigned :
    after (start 0#8 [0xA0#8, 0#8, 1#8] [(0, 127#8), (1, 128#8)] [] flagG) (fun t => t.flags == flagL && t.pc == 3#8) = true := by
  decide

/-- V-CMP-3. -/
theorem test_cmp_greater :
    after (start 0#8 [0xA0#8, 0#8, 1#8] [(0, 255#8)] [] flagL) (fun t => t.flags == flagG) = true := by decide

/-- V-J-1. -/
theorem test_jmp :
    after (start 10#8 [0x50#8, 3#8] [(3, 200#8)] [] noFlags) (fun t => t.pc == 200#8) = true := by decide

/-- V-J-3 and V-J-4. -/
theorem test_jeq :
    after (start 20#8 [0x51#8, 2#8] [(2, 16#8)] [] flagE) (fun t => t.pc == 16#8) = true ∧
    after (start 20#8 [0x51#8, 2#8] [(2, 16#8)] [] flagG) (fun t => t.pc == 22#8) = true := by decide

/-- V-J-11: the index is checked though the jump is not taken. -/
theorem test_jeq_bad_index_untaken :
    after (start 0#8 [0x51#8, 0xC8#8] [] [] noFlags) (fun t => t.haltCause.code == 4#3 && t.pc == 0#8) = true := by decide

/-- V-J-5 and V-J-6. -/
theorem test_jne :
    after (start 20#8 [0x52#8, 3#8] [(3, 12#8)] [] flagL) (fun t => t.pc == 12#8) = true ∧
    after (start 20#8 [0x52#8, 3#8] [(3, 12#8)] [] flagE) (fun t => t.pc == 22#8) = true := by decide

/-- V-PP-2, its first step: the decremented SP is what is stored. -/
theorem test_push_sp :
    after (start 0#8 [0x4D#8, 7#8] [] [] noFlags) (fun t => t.sp == 243#8 && t.readByte 243#8 == 243#8) = true := by decide

/-- V-PP-10: the step uses the operand fetched before the store. -/
theorem test_push_over_itself :
    after (start 10#8 [0x4D#8, 0#8] [(7, 12#8), (0, 5#8)] [] noFlags)
      (fun t => t.sp == 11#8 && t.readByte 11#8 == 5#8 && t.pc == 12#8) = true := by decide

/-- V-PP-5. -/
theorem test_pop_sp :
    after (start 0#8 [0x4C#8, 7#8] [] [(244#8, 100#8)] noFlags) (fun t => t.sp == 101#8 && t.pc == 2#8) = true := by decide

/-- V-PP-4. -/
theorem test_pop_wraps :
    after (start 10#8 [0x4C#8, 1#8] [(7, 255#8)] [(255#8, 9#8)] noFlags)
      (fun t => t.reg 1 == 9#8 && t.sp == 0#8 && t.pc == 12#8) = true := by decide

/-- V-CR-4: the return address wraps. -/
theorem test_call_wraps :
    after (start 255#8 [0x48#8, 1#8] [(1, 50#8)] [] noFlags)
      (fun t => t.sp == 243#8 && t.readByte 243#8 == 1#8 && t.pc == 50#8) = true := by decide

/-- V-CR-5: CALL R7 goes to the decremented SP. -/
theorem test_call_sp :
    after (start 0#8 [0x48#8, 7#8] [] [] noFlags) (fun t => t.pc == 243#8 && t.readByte 243#8 == 2#8) = true := by decide

/-- V-CR-2: RET does not pop. -/
theorem test_ret :
    after (start 20#8 [0x09#8] [(7, 242#8)] [(242#8, 10#8)] noFlags) (fun t => t.pc == 10#8 && t.sp == 242#8) = true := by decide

/-- V-CR-ALT: the labelled alternative. -/
theorem test_ret_alternative :
    (returnWith true (start 20#8 [0x09#8] [(7, 242#8)] [(242#8, 10#8)] noFlags)).sp = 243#8 := by decide

/-- V-F-2. -/
theorem test_unknown_opcode :
    after (start 30#8 [0xC5#8, 1#8, 2#8] [(1, 9#8)] [] flagG)
      (fun t => t.haltCause.code == 2#3 && t.diagAddr == 30#8 && t.diagOpcode == 0xC5#8 && t.pc == 30#8) = true := by decide

/-- V-F-4: an unknown opcode gives its operand bytes no meaning. -/
theorem test_unknown_before_bad_index :
    after (start 0#8 [2#8, 0xFF#8, 0xFF#8] [] [] noFlags) (fun t => t.haltCause.code == 2#3) = true := by decide

/-- The states of `start` have a canonical memory, a cell holding 0 included (it is not listed). -/
theorem test_start_wf : (start 254#8 [0x99#8, 0#8, 0x4D#8] [] [(1#8, 5#8)] noFlags).mem = [(0, 0x4D#8), (1, 5#8), (254, 0x99#8)] ∧
    (start 254#8 [0x99#8, 0#8, 0x4D#8] [] [(1#8, 5#8)] noFlags).mem.wf = true := by decide

/-- The word placed where `step` fetches is the one that runs. -/
theorem test_withFetchWord : after (State.reset.withFetchWord 24 0x080099) (fun t => t.reg 0 == 8#8) = true := by decide

/-! ### Witnesses: inputs that meet the hypotheses of the statements, clause by clause -/

/-- R96's ranges at both ends, and the bytes beside them that are opcodes. -/
theorem witness_unknownOpcodeByte :
    [0x00, 0x02, 0x08, 0x0A, 0x42, 0x44, 0x47, 0x49, 0x4B, 0x4E, 0x4F, 0x53, 0x98, 0x9A, 0x9F, 0xA1, 0xA7, 0xA9, 0xAB, 0xFF].all
      unknownOpcodeByte = true ∧
    [0x01, 0x09, 0x43, 0x48, 0x4C, 0x4D, 0x50, 0x51, 0x52, 0x99, 0xA0, 0xA8, 0xAA].any unknownOpcodeByte = false := by decide

theorem witness_unknownOpcode :
    ∃ s : State, s.run = .running ∧ s.haltCause = .none ∧ unknownOpcodeByte (s.readByte s.pc).toNat = true :=
  ⟨State.reset, by decide⟩

theorem witness_unknownOpcode_step : ∃ s t : State, s.run = .running ∧ s.haltCause = .none ∧ step s = .next t ∧
    IsFatalCause t.haltCause ∧ t.haltCause = .unknownOpcode := ⟨State.reset, _, rfl, rfl, rfl, .inl rfl, rfl⟩

/-- Lengths 1, 2, 3, and a `pc` from which the sum is 255. -/
theorem witness_length : (decode ⟨0x09#8, 0#8, 0#8⟩ = .ok .ret ∧ decode ⟨0x50#8, 0#8, 0#8⟩ = .ok (.jmp 0#8) ∧
    decode ⟨0x99#8, 0#8, 0#8⟩ = .ok (.ldi 0#8 0#8)) ∧ ∃ s : State, s.pc.toNat + (encode (.ldi 0#8 0#8)).length = 255 :=
  ⟨by decide, start 252#8 [] [] [] noFlags, by decide⟩

/-- The operand addresses at the top of memory, and fetched bytes that differ only where they play no part. -/
theorem witness_unusedOperandBytes :
    (∃ (s : State) (a b : Byte), a.toNat = (s.pc.toNat + 1) % 256 ∧ b.toNat = (s.pc.toNat + 2) % 256 ∧ a = 255#8 ∧ b = 0#8) ∧
    (∃ f g : Fetched, f.opcode = g.opcode ∧ 1 ≤ f.opcode.toNat / 64 ∧ f.opA = g.opA ∧ ¬ 2 ≤ f.opcode.toNat / 64 ∧ f.opB ≠ g.opB) ∧
    (∃ f : Fetched, 2 ≤ f.opcode.toNat / 64) :=
  ⟨⟨start 254#8 [] [] [] noFlags, 255#8, 0#8, by decide⟩, ⟨⟨0x50#8, 3#8, 0#8⟩, ⟨0x50#8, 3#8, 1#8⟩, by decide⟩,
    ⟨⟨0x99#8, 0#8, 0#8⟩, by decide⟩⟩

theorem witness_stepRuns : ∃ s : State, s.run = .running ∧
    decode ⟨s.readByte s.pc, s.readByte (s.pc + 1#8), s.readByte (s.pc + 2#8)⟩ = .ok (.ldi 2#8 77#8) :=
  ⟨start 254#8 [0x99#8, 2#8, 77#8] [] [] noFlags, by decide⟩

theorem witness_placedWord : ∃ s : State, s.mem.wf = true ∧ s.run = .running ∧ decodeTableWord 24 0x0100AA = some (.mul 0#8 1#8) :=
  ⟨start 255#8 [1#8] [] [] noFlags, by decide⟩

theorem witness_halted : ∃ s t : State, s.run = .halted ∧ t.mem = s.mem ∧ t ≠ s :=
  ⟨State.reset.haltNormally, State.reset, by decide⟩

/-- HLT, the two fatal conditions that programs reach, and a HALTED machine. -/
theorem witness_runState :
    (∃ s t : State, s.run = .running ∧ step s = .next t ∧ t.run = .halted ∧ decode s.fetch = .ok .hlt) ∧
    (∃ s t : State, s.run = .running ∧ step s = .next t ∧ t.run = .halted ∧ t.haltCause = .badRegIndex) ∧
    (∃ s t : State, s.run = .halted ∧ exec .hlt s = .next t) ∧ (∃ s t : State, s.run = .halted ∧ step s = .next t) :=
  ⟨⟨start 0#8 [1#8] [] [] noFlags, _, by decide, rfl, by decide, by decide⟩,
    ⟨start 0#8 [0x99#8, 8#8] [] [] noFlags, _, by decide, rfl, by decide, by decide⟩,
    ⟨State.reset.haltNormally, _, by decide, rfl⟩, ⟨State.reset.haltNormally, _, by decide, rfl⟩⟩

theorem witness_badRegIndex : (∃ a : Byte, 7 < a.toNat ∧ a = 8#8) ∧ (∃ a b : Byte, (7 < a.toNat ∨ 7 < b.toNat) ∧ a = 7#8 ∧ b = 8#8) ∧
    (∃ a b : Byte, (7 < a.toNat ∨ 7 < b.toNat) ∧ a = 255#8 ∧ b = 0#8) :=
  ⟨⟨8#8, by decide⟩, ⟨7#8, 8#8, by decide⟩, ⟨255#8, 0#8, by decide⟩⟩

theorem witness_badRegIndex_step : ∃ s t : State, s.run = .running ∧ s.haltCause = .none ∧ step s = .next t ∧
    IsFatalCause t.haltCause ∧ decode s.fetch = .ok (.ldi 8#8 0#8) ∧ ¬ (Instr.ldi 8#8 0#8).WellFormed :=
  ⟨start 0#8 [0x99#8, 8#8] [] [] noFlags, _, by decide, by decide, rfl, .inr (.inr rfl), by decide, by decide⟩

theorem witness_unknownAluOp : ∃ s t : State, s.haltCause ≠ .unknownAluOp ∧ exec (.mul 0#8 1#8) s = .next t :=
  ⟨State.reset, _, by decide, rfl⟩

/-- The operand bytes that name a register, at both ends; with SP and with another register as the operand. -/
theorem witness_names : Names 0#8 0 ∧ Names 7#8 7 ∧ ((7 : RegIdx) = 7) ∧ ((0 : RegIdx) ≠ 7) := by
  refine ⟨rfl, rfl, rfl, by decide⟩

/-- CMP of a register with itself; E set and E clear. -/
theorem witness_cmp_jeq : (∃ ra rb : RegIdx, Names 3#8 ra ∧ Names 3#8 rb ∧ ra = rb) ∧ (∃ s : State, s.flags.e = true) ∧
    (∃ s : State, s.flags.e = false) :=
  ⟨⟨3, 3, rfl, rfl, rfl⟩, ⟨start 0#8 [] [] [] flagE, rfl⟩, ⟨State.reset, rfl⟩⟩

/-- PUSH and CALL with SP at 0: the address stored to is 255. -/
theorem witness_push_call : ∃ s : State, s.mem.wf = true ∧ Names 7#8 7 ∧ Names 1#8 1 ∧ s.decSp.sp = 255#8 :=
  ⟨start 0#8 [0x4D#8, 7#8] [(7, 0#8)] [] noFlags, by decide, rfl, rfl, by decide⟩

/-- A CALL, and a later state with its SP and the byte there, at another `pc`. -/
theorem witness_call_ret : ∃ s t u : State, s.mem.wf = true ∧ Names 1#8 1 ∧ exec (.call 1#8) s = .next t ∧ u.sp = t.sp ∧
    u.readByte u.sp = t.readByte t.sp ∧ u ≠ t :=
  ⟨start 8#8 [0x48#8, 1#8] [(1, 17#8)] [] noFlags, _, start 20#8 [0x09#8] [(7, 243#8)] [(243#8, 10#8)] noFlags, by decide, rfl, rfl,
    by decide, by decide, by decide⟩

/-- The clauses on the flags: an instruction that is no CMP; its byte in memory; JEQ and JNE; a CMP; flags that agree on E
only. -/
theorem witness_flags :
    ((∀ a b, Instr.hlt ≠ .cmp a b) ∧ (∀ a, Instr.hlt ≠ .jeq a ∧ Instr.hlt ≠ .jne a) ∧ ∃ t, exec .hlt State.reset = .next t) ∧
    (∃ s t : State, (s.readByte s.pc).toNat ≠ 0xA0 ∧ step s = .next t ∧ s.flags ≠ noFlags) ∧
    (∃ s t u : State, Names 0#8 0 ∧ exec (.jeq 0#8) s = .next t ∧ exec (.jne 0#8) s = .next u) ∧
    (∃ s t : State, (Instr.cmp 0#8 7#8).WellFormed ∧ exec (.cmp 0#8 7#8) s = .next t) ∧
    (∃ (s t : State) (f : Flags), f.e = s.flags.e ∧ f ≠ s.flags ∧ exec (.jeq 0#8) s = .next t) :=
  ⟨⟨by simp, by simp, _, rfl⟩, ⟨start 0#8 [0xA8#8] [] [] flagE, _, by decide, rfl, by decide⟩, ⟨State.reset, _, _, rfl, rfl, rfl⟩,
    ⟨State.reset, _, by decide, rfl⟩, ⟨State.reset, _, flagL, by decide, by decide, rfl⟩⟩

/-- A register that changes as a destination, as POP's destination and as SP. -/
theorem witness_registersWritten :
    (∃ t, exec (.ldi 0#8 9#8) State.reset = .next t ∧ t.reg 0 ≠ State.reset.reg 0) ∧
    (∃ s t : State, exec (.pop 1#8) s = .next t ∧ t.reg 1 ≠ s.reg 1 ∧ t.reg 7 ≠ s.reg 7) ∧
    (∃ t, exec (.push 0#8) State.reset = .next t ∧ t.reg 7 ≠ State.reset.reg 7) :=
  ⟨⟨_, rfl, by decide⟩, ⟨start 0#8 [] [] [(244#8, 3#8)] noFlags, _, rfl, by decide, by decide⟩, ⟨_, rfl, by decide⟩⟩

/-- A register not read: LDI's destination, JEQ's target with E clear, POP's destination. -/
theorem witness_registersRead : ¬ ReadsRegister (.ldi 0#8 9#8) false 0 ∧ ¬ ReadsRegister (.jeq 1#8) false 1 ∧
    ¬ ReadsRegister (.pop 1#8) false 1 ∧ ∃ t, exec (.pop 1#8) State.reset = .next t :=
  ⟨by simp [ReadsRegister], by simp [ReadsRegister], by simp [ReadsRegister, Config.spIdx], _, rfl⟩

theorem witness_autoAdvance : (Instr.jeq 7#8).WellFormed ∧ (∃ t, exec (.jeq 7#8) State.reset = .next t) ∧
    (Instr.cmp 7#8 7#8).WellFormed ∧ (∃ t, exec (.cmp 7#8 7#8) State.reset = .next t) :=
  ⟨by decide, ⟨_, rfl⟩, by decide, ⟨_, rfl⟩⟩

theorem witness_output : ∃ s t : State, s.stepOutput ≠ none ∧ step s = .next t :=
  ⟨start 0#8 [0x43#8, 7#8] [] [] noFlags, _, by decide, rfl⟩

/-- A step with a read and one with a write after the fetch (R65). -/
theorem witness_accesses :
    (∃ s : State, s.run = .running ∧ Access.read 244#8 9#8 ∈ s.stepAccesses) ∧
    (∃ s t : State, s.run = .running ∧ Access.write 243#8 244#8 ∉ s.stepAccesses ∧ Access.write 243#8 243#8 ∈ s.stepAccesses ∧
      step s = .next t) :=
  ⟨⟨start 0#8 [0x4C#8, 1#8] [] [(244#8, 9#8)] noFlags, by decide⟩,
    ⟨start 0#8 [0x4D#8, 7#8] [] [] noFlags, _, by decide, by decide, by decide, rfl⟩⟩

/-- PUSH, POP of SP itself and of another register with SP at 0. -/
theorem witness_pushThenPop :
    (∃ s : State, s.mem.wf = true ∧ s.run = .running ∧ Names 7#8 7 ∧ s.readByte s.pc = 0x4D#8 ∧ s.readByte (s.pc + 1#8) = 7#8 ∧
      s.readByte (s.pc + 2#8) = 0x4C#8 ∧ s.readByte (s.pc + 3#8) = 7#8 ∧ s.sp - 1#8 ≠ s.pc + 2#8 ∧ s.sp - 1#8 ≠ s.pc + 3#8) ∧
    (∃ s : State, s.mem.wf = true ∧ s.run = .running ∧ Names 0#8 0 ∧ s.readByte s.pc = 0x4D#8 ∧ s.readByte (s.pc + 1#8) = 0#8 ∧
      s.readByte (s.pc + 2#8) = 0x4C#8 ∧ s.readByte (s.pc + 3#8) = 0#8 ∧ s.sp - 1#8 = 255#8 ∧ s.sp - 1#8 ≠ s.pc + 2#8 ∧
      s.sp - 1#8 ≠ s.pc + 3#8) :=
  ⟨⟨start 0#8 [0x4D#8, 7#8, 0x4C#8, 7#8] [] [] noFlags, by decide, rfl, rfl, by decide⟩,
    ⟨start 10#8 [0x4D#8, 0#8, 0x4C#8, 0#8] [(7, 0#8), (0, 90#8)] [] noFlags, by decide, rfl, rfl, by decide⟩⟩

/-- Two names of one address, two addresses, and a canonical memory with the same bytes. -/
theorem witness_memory : ∃ s : State, s.mem.wf = true ∧ s.mem ≠ [] ∧ (256 : Int) % 256 = 0 % 256 ∧ (255 : Int) % 256 = -1 % 256 ∧
    (1 : Int) % 256 ≠ 0 % 256 ∧ ∀ a : Byte, s.mem.read a = s.mem.read a :=
  ⟨start 0#8 [1#8] [] [] noFlags, by decide, by decide, by decide, by decide, by decide, fun _ => rfl⟩

theorem witness_reset : (0 : RegIdx) ≠ 7 ∧ (6 : RegIdx) ≠ 7 ∧ ∃ m : Memory, m.wf = true ∧ m ≠ [] :=
  ⟨by decide, by decide, [(255, 1#8)], by decide⟩

/-- Programs of 256 bytes (every address) and of 257 bytes, and one that leaves addresses free. -/
theorem witness_load : (∃ p : List Byte, p.length ≤ 256 ∧ p.length = 256) ∧ (∃ p : List Byte, 256 < p.length) ∧
    (∃ (p : List Byte) (a : Byte), p.length ≤ 256 ∧ p.length ≤ a.toNat ∧ 0 < p.length) ∧ State.reset.mem.wf = true :=
  ⟨⟨List.replicate 256 0#8, by rw [List.length_replicate]; omega⟩, ⟨List.replicate 257 0#8, by rw [List.length_replicate]; omega⟩, ⟨[1#8], 1#8, by decide⟩, rfl⟩

/-- A session with a load, a step, a reset and a load again, whatever the memory image. -/
theorem witness_session (memInit : Byte → Byte) : ∃ c c' d : Session,
    (Session.start memInit).requests [.load 0#8 1#8] = some c ∧ c.request .step = some c' ∧
    c'.requests [.reset, .load 0#8 9#8] = some d := by
  obtain ⟨t, ht⟩ := step_completes ((State.powerOn memInit).load 0#8 1#8)
  refine ⟨⟨(State.powerOn memInit).load 0#8 1#8, false⟩, ⟨t, true⟩, ⟨t.hostReset.load 0#8 9#8, false⟩, ?_, ?_, ?_⟩ <;>
    simp only [Session.start, Session.requests, Session.request, ht, Bool.false_eq_true, if_false]

/-- Invariant states: RUNNING, HALTED by HLT, and HALTED on a fatal condition with its report. -/
theorem witness_inv : (∃ s t : State, Inv s ∧ step s = .next t) ∧
    (∃ s : State, Inv s ∧ s.run = .halted ∧ s.haltCause = .hlt) ∧
    (∃ s t : State, Inv s ∧ s.run = .halted ∧ s.haltCause = .badRegIndex ∧ step s = .next t) := by
  refine ⟨⟨State.reset, _, ⟨rfl, by decide, by decide, by decide, by decide, ?_⟩, rfl⟩,
    ⟨State.reset.haltNormally, ⟨rfl, by decide, by decide, by decide, fun _ => ⟨rfl, rfl⟩, ?_⟩, rfl, rfl⟩,
    ⟨(start 0#8 [0x99#8, 8#8] [] [] noFlags).raise .badRegIndex 0x99#8, _,
      ⟨by decide, by decide, by decide, by decide, ?_, fun _ => by decide⟩, rfl, rfl, rfl⟩⟩
  · rintro (h | h | h) <;> exact absurd h (by decide)
  · rintro (h | h | h) <;> exact absurd h (by decide)
  · rintro (h | h) <;> exact absurd h (by decide)

end Sys2Proof.Tests
end

section
/-!
PROOFS of the family 10_state.md: the invariant, the run state, the flags, the registers, the output trace, the reset values.
-/

namespace Sys2Proof

open Machine

variable {i : Instr} {s t : State}

/-! ### The invariant -/

/-- Fatal entry keeps the invariant when the cause is one that a step raises and the report is the byte at `pc`. -/
theorem inv_fatalState (hs : Inv s) {c : HaltCause} {opcode : Byte} (hc : c = .unknownOpcode ∨ c = .badRegIndex)
    (ho : opcode = s.readByte s.pc) : Inv (fatalState s c opcode) where
  memWf := hs.memWf
  causeOfRun := by rcases hc with rfl | rfl <;> simp [fatalState]
  aluOpKnown := by rcases hc with rfl | rfl <;> simp [fatalState]
  flagsExclusive := hs.flagsExclusive
  diagZero := by rcases hc with rfl | rfl <;> simp [fatalState]
  diagReport _ := ⟨rfl, ho⟩

theorem effect_flags_exclusive (h : Effect i s t) (hs : s.flags.e.toNat + s.flags.l.toNat + s.flags.g.toNat ≤ 1) :
    t.flags.e.toNat + t.flags.l.toNat + t.flags.g.toNat ≤ 1 := by
  rcases effect_flags h with hf | ⟨va, vb, hf⟩
  · rwa [hf]
  · rw [hf, compareFlags_exclusive]

/-- The effect of an instruction from a RUNNING state keeps the invariant. -/
theorem inv_effect (hs : Inv s) (hr : s.run = .running) (h : Effect i s t) : Inv t := by
  have hc : s.haltCause = .none := hs.causeOfRun.mpr hr
  obtain ⟨hctl, hda, hdo⟩ := effect_control h
  have hdiag : t.diagAddr = 0#8 ∧ t.diagOpcode = 0#8 := by
    rw [hda, hdo]
    exact hs.diagZero (.inl hc)
  have hcause : (t.run = .halted ∧ t.haltCause = .hlt) ∨ (t.run = .running ∧ t.haltCause = .none) := by
    rw [hr, hc] at hctl
    exact hctl.imp_left And.right
  have hwf := effect_mem_wf h hs.memWf
  have hflags := effect_flags_exclusive h hs.flagsExclusive
  rcases hcause with ⟨hrun, hcause⟩ | ⟨hrun, hcause⟩
  all_goals exact
    { memWf := hwf
      causeOfRun := by simp [hrun, hcause]
      aluOpKnown := by simp [hcause]
      flagsExclusive := hflags
      diagZero := fun _ => hdiag
      diagReport := by simp [hcause, IsFatalCause] }

/-- Settles O46, by the inversion of the step: nothing happens, a fatal entry, or an instruction's effect. -/
theorem stepKeepsTheInvariant : Obligations.StepKeepsTheInvariant := by
  intro s t hs h
  rcases step_eq_next h with ⟨-, rfl⟩ | ⟨-, -, rfl⟩ | ⟨-, i, hd, -, rfl⟩ | ⟨hr, i, -, -, he⟩
  · exact hs
  · exact inv_fatalState hs (.inl rfl) (fetch_opcode s)
  · exact inv_fatalState hs (.inr rfl) (by rw [← opcode_of_decode hd, fetch_opcode])
  · exact inv_effect hs hr he

theorem inv_hostReset (hw : s.mem.wf = true) : Inv s.hostReset where
  memWf := hw
  causeOfRun := by simp
  aluOpKnown := by simp
  flagsExclusive := by
    rw [State.hostReset_flags]
    decide
  diagZero _ := ⟨rfl, rfl⟩
  diagReport := by simp [IsFatalCause]

/-- Settles O47: `State.reset` is its own reset, and its memory lists nothing. -/
theorem resetMeetsTheInvariant : Obligations.ResetMeetsTheInvariant :=
  ⟨inv_hostReset (s := State.reset) Memory.wf_nil, fun _ => inv_hostReset⟩

/-! ### The run state -/

theorem effect_hlt_run (h : Effect .hlt s t) : t.run = .halted := by
  simp only [Effect] at h
  rw [h]

/-- A step to HALTED is an HLT or a fatal entry. -/
theorem step_to_halted (hr : s.run = .running) (h : step s = .next t) (ht : t.run = .halted) :
    (decode s.fetch = .ok .hlt ∧ t.haltCause = .hlt) ∨ ∃ c opcode, IsFatalCause c ∧ t = fatalState s c opcode := by
  rcases step_eq_next h with ⟨hh, -⟩ | ⟨-, -, rfl⟩ | ⟨-, i, -, -, rfl⟩ | ⟨-, i, hd, -, he⟩
  · simp [hr] at hh
  · exact .inr ⟨_, _, .inl rfl, rfl⟩
  · exact .inr ⟨_, _, .inr (.inr rfl), rfl⟩
  · obtain ⟨⟨rfl, -, hc⟩ | ⟨hrun, -⟩, -, -⟩ := effect_control he
    · exact .inl ⟨hd, hc⟩
    · simp [hrun, hr] at ht

theorem step_hlt_halts (h : step s = .next t) (hd : decode s.fetch = .ok .hlt) : t.run = .halted := by
  rcases step_eq_next h with ⟨hh, rfl⟩ | ⟨-, -, rfl⟩ | ⟨-, i, -, -, rfl⟩ | ⟨-, i, hi, -, he⟩
  · exact hh
  · rfl
  · rfl
  · cases hd.symm.trans hi
    exact effect_hlt_run he

theorem exec_run_of_halted (hs : s.run = .halted) (h : exec i s = .next t) : t.run = .halted := by
  rcases exec_eq_next h with ⟨-, rfl⟩ | ⟨-, he⟩
  · rfl
  · obtain ⟨⟨-, hrun, -⟩ | ⟨hrun, -⟩, -, -⟩ := effect_control he
    · exact hrun
    · exact hrun.trans hs

theorem step_run_of_halted (hs : s.run = .halted) (h : step s = .next t) : t.run = .halted := by
  rw [step_of_halted hs] at h
  cases h
  exact hs

/-- Settles O12, clause by clause. -/
theorem runStateTransitions : Obligations.RunStateTransitions :=
  ⟨rfl, fun _ _ => step_to_halted, fun _ _ => step_hlt_halts, fun _ _ _ => exec_run_of_halted,
    fun _ _ => step_run_of_halted, fun _ => rfl, fun s => by simp [State.statusPorts]⟩

/-! ### The flags -/

theorem effect_flags_of_not_cmp (hi : ∀ a b, i ≠ .cmp a b) (h : Effect i s t) : t.flags = s.flags := by
  cases i <;> simp only [Effect] at h
  case hlt | ret => rw [h]
  case cmp a b => exact absurd rfl (hi a b)
  case mul | add => obtain ⟨_, _, _, _, rfl⟩ := h; rfl
  all_goals obtain ⟨_, _, rfl⟩ := h; rfl

theorem exec_flags_of_not_cmp (hi : ∀ a b, i ≠ .cmp a b) (h : exec i s = .next t) : t.flags = s.flags := by
  rcases exec_eq_next h with ⟨-, rfl⟩ | ⟨-, he⟩
  · rfl
  · exact effect_flags_of_not_cmp hi he

/-- A step whose opcode byte is not CMP's keeps the flags. -/
theorem step_flags_of_not_cmp (ho : (s.readByte s.pc).toNat ≠ 0xA0) (h : step s = .next t) : t.flags = s.flags := by
  rcases step_eq_next h with ⟨-, rfl⟩ | ⟨-, -, rfl⟩ | ⟨-, i, -, -, rfl⟩ | ⟨-, i, hd, -, he⟩
  · rfl
  · rfl
  · rfl
  · refine effect_flags_of_not_cmp (fun a b hi => ho ?_) he
    rw [← fetch_opcode, opcode_of_decode hd, hi]
    rfl

theorem exec_jeq {a : Byte} {r : RegIdx} (ha : Names a r) (s : State) :
    exec (.jeq a) s = .next { s with pc := if s.flags.e then s.reg r else s.pc + 2#8 } :=
  exec_of_effect ⟨r, ha, rfl⟩

theorem exec_jne {a : Byte} {r : RegIdx} (ha : Names a r) (s : State) :
    exec (.jne a) s = .next { s with pc := if s.flags.e then s.pc + 2#8 else s.reg r } :=
  exec_of_effect ⟨r, ha, rfl⟩

theorem exec_cmp_flags_irrelevant {a b : Byte} (hw : (Instr.cmp a b).WellFormed) (h : exec (.cmp a b) s = .next t)
    (f : Flags) : exec (.cmp a b) { s with flags := f } = .next t := by
  rcases exec_eq_next h with ⟨hbad, -⟩ | ⟨-, ra, rb, ha, hb, rfl⟩
  · simp [hw] at hbad
  · exact exec_of_effect ⟨ra, rb, ha, hb, rfl⟩

/-- An instruction's effect under other flags, which agree on E unless the instruction is no JEQ and no JNE. -/
theorem effect_with_flags {f : Flags} (hf : f.e = s.flags.e ∨ ∀ a, i ≠ .jeq a ∧ i ≠ .jne a) (h : Effect i s t) :
    ∃ f', Effect i { s with flags := f } { t with flags := f' } := by
  cases i <;> simp only [Effect] at h ⊢
  case hlt | ret => subst h; exact ⟨f, rfl⟩
  case cmp => obtain ⟨ra, rb, ha, hb, rfl⟩ := h; exact ⟨_, ra, rb, ha, hb, rfl⟩
  case mul | add => obtain ⟨ra, rb, ha, hb, rfl⟩ := h; exact ⟨f, ra, rb, ha, hb, rfl⟩
  case jeq a =>
    obtain ⟨r, hr, rfl⟩ := h
    have hE : f.e = s.flags.e := hf.resolve_right fun hn => (hn a).1 rfl
    exact ⟨f, r, hr, by rw [hE]; rfl⟩
  case jne a =>
    obtain ⟨r, hr, rfl⟩ := h
    have hE : f.e = s.flags.e := hf.resolve_right fun hn => (hn a).2 rfl
    exact ⟨f, r, hr, by rw [hE]; rfl⟩
  all_goals obtain ⟨r, hr, rfl⟩ := h; exact ⟨f, r, hr, rfl⟩

theorem exec_with_flags {f : Flags} (hf : f.e = s.flags.e ∨ ∀ a, i ≠ .jeq a ∧ i ≠ .jne a) (h : exec i s = .next t) :
    ∃ f', exec i { s with flags := f } = .next { t with flags := f' } := by
  rcases exec_eq_next h with ⟨hw, rfl⟩ | ⟨-, he⟩
  · exact ⟨f, exec_of_not_wf hw⟩
  · obtain ⟨f', he'⟩ := effect_with_flags hf he
    exact ⟨f', exec_of_effect he'⟩

/-- Settles O30: who writes the flags, where JEQ and JNE go, and that no other flag is read. -/
theorem onlyCmpWritesFlagsOnlyEIsRead : Obligations.OnlyCmpWritesFlagsOnlyEIsRead := by
  refine ⟨fun _ _ _ => exec_flags_of_not_cmp, fun _ _ => step_flags_of_not_cmp, ?_,
    fun _ _ _ _ f hw h => exec_cmp_flags_irrelevant hw h f, fun _ _ _ _ hi => exec_with_flags (.inr hi),
    fun _ _ _ _ hE => exec_with_flags (.inl hE)⟩
  intro a r s t u ha ht hu
  rw [exec_jeq ha] at ht
  rw [exec_jne ha] at hu
  cases ht
  cases hu
  exact ⟨rfl, rfl⟩

/-! ### The registers -/

theorem Machine.RegFile.set_set (f : RegFile) (r : RegIdx) (v v' : Byte) : (f.set r v).set r v' = f.set r v' := by
  fin_cases r <;> rfl

theorem reset_reg (r : RegIdx) : State.reset.reg r = if r = Config.spIdx then Config.spReset else Config.regReset := by
  fin_cases r <;> rfl

theorem setReg_reg_toNat (s : State) (r : RegIdx) (v : Int) : (((s.setReg r v).reg r).toNat : Int) = v % 256 := by
  rw [State.setReg_reg_self, wrap_toNat]
  omega

theorem setReg_setReg (s : State) (r : RegIdx) (v v' : Int) : (s.setReg r v).setReg r v' = s.setReg r v' := by
  simp only [State.setReg, RegFile.set_set]

/-- Settles O38. -/
theorem registerWriteWraps : Obligations.RegisterWriteWraps := fun s r v =>
  ⟨setReg_reg_toNat s r v, fun _ => State.setReg_reg_ne s v, setReg_setReg s r v, reset_reg r⟩

/-- Settles O40. -/
theorem resetValues : Obligations.ResetValues := fun _ =>
  ⟨rfl, rfl, fun r hr => (reset_reg r).trans (if_neg hr), rfl, rfl, rfl, rfl, rfl, rfl⟩

theorem eq_of_get_set_ne {f : RegFile} {r r' : RegIdx} {v : Byte} (h : (f.set r v).get r' ≠ f.get r') : r' = r :=
  Decidable.byContradiction fun hne => h (RegFile.get_set_ne f v hne)

/-- R26's column "registers written". -/
theorem effect_reg_changed {r : RegIdx} (h : Effect i s t) (hr : t.reg r ≠ s.reg r) :
    (∃ a b, Names a r ∧ (i = .ldi a b ∨ i = .mul a b ∨ i = .add a b)) ∨ (∃ a, Names a r ∧ i = .pop a) ∨
    (r = 7 ∧ ∃ a, i = .push a ∨ i = .pop a ∨ i = .call a) := by
  cases i <;> simp only [Effect] at h
  case ldi a b =>
    obtain ⟨ra, ha, rfl⟩ := h
    obtain rfl := eq_of_get_set_ne hr
    exact .inl ⟨a, b, ha, .inl rfl⟩
  case mul a b =>
    obtain ⟨ra, _, ha, _, rfl⟩ := h
    obtain rfl := eq_of_get_set_ne hr
    exact .inl ⟨a, b, ha, .inr (.inl rfl)⟩
  case add a b =>
    obtain ⟨ra, _, ha, _, rfl⟩ := h
    obtain rfl := eq_of_get_set_ne hr
    exact .inl ⟨a, b, ha, .inr (.inr rfl)⟩
  case pop a =>
    obtain ⟨ra, ha, rfl⟩ := h
    by_cases h7 : r = Config.spIdx
    · exact .inr (.inr ⟨h7, a, .inr (.inl rfl)⟩)
    · rw [State.reg, RegFile.get_set_ne _ _ h7] at hr
      obtain rfl := eq_of_get_set_ne hr
      exact .inr (.inl ⟨a, ha, rfl⟩)
  case push a =>
    obtain ⟨_, _, rfl⟩ := h
    exact .inr (.inr ⟨eq_of_get_set_ne hr, a, .inl rfl⟩)
  case call a =>
    obtain ⟨_, _, rfl⟩ := h
    exact .inr (.inr ⟨eq_of_get_set_ne hr, a, .inr (.inr rfl)⟩)
  case hlt | ret => subst h; exact absurd rfl hr
  case cmp => obtain ⟨_, _, _, _, rfl⟩ := h; exact absurd rfl hr
  all_goals obtain ⟨_, _, rfl⟩ := h; exact absurd rfl hr

/-- Settles O31: a fatal entry changes no register, an effect those of R26. -/
theorem registersWrittenAsTabled : Obligations.RegistersWrittenAsTabled := by
  intro i s t r h hr
  rcases exec_eq_next h with ⟨-, rfl⟩ | ⟨-, he⟩
  · exact absurd rfl hr
  · exact effect_reg_changed he hr

/-- The two register files hold the same in every register but `r`. -/
def AgreeBut (r : RegIdx) (f g : RegFile) : Prop := ∀ r', r' ≠ r → f.get r' = g.get r'

theorem agreeBut_set (r : RegIdx) (f : RegFile) (v : Byte) : AgreeBut r (f.set r v) f :=
  fun _ h => RegFile.get_set_ne f v h

theorem AgreeBut.set {r : RegIdx} {f g : RegFile} (h : AgreeBut r f g) (r₁ : RegIdx) (v : Byte) :
    AgreeBut r (f.set r₁ v) (g.set r₁ v) := by
  intro r' hr'
  rw [RegFile.get_set, RegFile.get_set, h r' hr']

/-- A register read of another register than the one overwritten. -/
theorem reg_of_regs_set {r r' : RegIdx} (h : r' ≠ r) (v : Byte) :
    State.reg { s with regs := s.regs.set r v } r' = s.reg r' :=
  RegFile.get_set_ne _ _ h

theorem sp_of_regs_set_ne {r : RegIdx} (h : r ≠ Config.spIdx) (v : Byte) :
    State.sp { s with regs := s.regs.set r v } = s.sp :=
  reg_of_regs_set h.symm v

theorem ne_of_not_names {b : Byte} {r ra : RegIdx} (h : ¬ Names b r) (ha : b.toNat = ra.val) : ra ≠ r :=
  fun he => h (he ▸ ha)

/-- An instruction's effect with another value in a register that R26's table does not let it read. -/
theorem effect_of_unread {r : RegIdx} (v : Byte) (hn : ¬ ReadsRegister i s.flags.e r) (h : Effect i s t) :
    ∃ f, Effect i { s with regs := s.regs.set r v } { t with regs := f } ∧ AgreeBut r f t.regs := by
  have hset := agreeBut_set r s.regs v
  cases i <;> simp only [ReadsRegister, not_or, not_and] at hn <;> simp only [Effect] at h ⊢
  case ldi a b =>
    obtain ⟨ra, ha, rfl⟩ := h
    exact ⟨_, ⟨ra, ha, rfl⟩, hset.set ra b⟩
  case hlt => subst h; exact ⟨_, rfl, hset⟩
  case prn a | jmp a =>
    obtain ⟨ra, ha, rfl⟩ := h
    exact ⟨_, ⟨ra, ha, by rw [reg_of_regs_set (ne_of_not_names hn ha)]⟩, hset⟩
  case mul a b | add a b =>
    obtain ⟨ra, rb, ha, hb, rfl⟩ := h
    obtain ⟨hna, hnb⟩ := hn
    refine ⟨_, ⟨ra, rb, ha, hb, ?_⟩, hset.set _ _⟩
    rw [reg_of_regs_set (ne_of_not_names hna ha), reg_of_regs_set (ne_of_not_names hnb hb)]
  case cmp a b =>
    obtain ⟨ra, rb, ha, hb, rfl⟩ := h
    obtain ⟨hna, hnb⟩ := hn
    refine ⟨_, ⟨ra, rb, ha, hb, ?_⟩, hset⟩
    rw [reg_of_regs_set (ne_of_not_names hna ha), reg_of_regs_set (ne_of_not_names hnb hb)]
  case jeq a =>
    obtain ⟨ra, ha, rfl⟩ := h
    refine ⟨_, ⟨ra, ha, ?_⟩, hset⟩
    cases he : s.flags.e
    · rfl
    · rw [reg_of_regs_set (ne_of_not_names (hn he) ha)]
  case jne a =>
    obtain ⟨ra, ha, rfl⟩ := h
    refine ⟨_, ⟨ra, ha, ?_⟩, hset⟩
    cases he : s.flags.e
    · rw [reg_of_regs_set (ne_of_not_names (hn he) ha)]
    · rfl
  case push a | call a =>
    obtain ⟨ra, ha, rfl⟩ := h
    obtain ⟨hsp, hna⟩ := hn
    refine ⟨_, ⟨ra, ha, ?_⟩, hset.set _ _⟩
    rw [sp_of_regs_set_ne hsp, reg_of_regs_set (ne_of_not_names hna ha)]
  case pop a =>
    obtain ⟨ra, ha, rfl⟩ := h
    refine ⟨_, ⟨ra, ha, ?_⟩, (hset.set _ _).set _ _⟩
    rw [sp_of_regs_set_ne hn]
    rfl
  case ret =>
    subst h
    exact ⟨_, by rw [sp_of_regs_set_ne hn]; rfl, hset⟩

/-- Settles O32: a fatal entry depends on no register, an effect on those of R26 only. -/
theorem registersReadAsTabled : Obligations.RegistersReadAsTabled := by
  intro i s t r v hn h
  rcases exec_eq_next h with ⟨hw, rfl⟩ | ⟨-, he⟩
  · exact ⟨_, exec_of_not_wf hw, agreeBut_set r s.regs v⟩
  · obtain ⟨f, he', hf⟩ := effect_of_unread v hn he
    exact ⟨f, exec_of_effect he', hf⟩

/-! ### The output trace -/

theorem outputsOf_of_not_wf (h : i.wf = false) : outputsOf i s = none := by
  cases i <;> simp only [outputsOf]
  case prn a => rw [regIndex_eq_none.mpr (isRegByte_eq_false.mp h), Option.map_none]

/-- An instruction's effect under any other output trace: the trace only grows, by the byte at the output port. -/
theorem effect_with_out (o : List Byte) (h : Effect i s t) :
    Effect i { s with out := o } { t with out := o ++ (outputsOf i s).toList } := by
  cases i <;> simp only [Effect] at h <;> simp only [Effect, outputsOf, Option.toList_none, List.append_nil]
  case prn a =>
    obtain ⟨r, hr, rfl⟩ := h
    exact ⟨r, hr, by rw [regIndex_eq_some.mpr hr]; rfl⟩
  case hlt | ret => subst h; rfl
  case mul | add | cmp => obtain ⟨ra, rb, ha, hb, rfl⟩ := h; exact ⟨ra, rb, ha, hb, rfl⟩
  all_goals obtain ⟨r, hr, rfl⟩ := h; exact ⟨r, hr, rfl⟩

theorem exec_with_out (o : List Byte) (h : exec i s = .next t) :
    exec i { s with out := o } = .next { t with out := o ++ (outputsOf i s).toList } := by
  rcases exec_eq_next h with ⟨hw, rfl⟩ | ⟨-, he⟩
  · rw [exec_of_not_wf hw, outputsOf_of_not_wf hw, Option.toList_none, List.append_nil]
    rfl
  · exact exec_of_effect (effect_with_out o he)

theorem stepOutput_of_halted (h : s.run = .halted) : s.stepOutput = none := by
  simp [State.stepOutput, h]

theorem stepOutput_of_decode (hr : s.run = .running) (hd : decode s.fetch = .ok i) : s.stepOutput = outputsOf i s := by
  simp [State.stepOutput, hr, hd]

theorem stepOutput_of_unknown (hr : s.run = .running) (h : s.fetch.opcode ∉ opcodeBytes) : s.stepOutput = none := by
  simp [State.stepOutput, hr, decode_error_of_notMem h]

theorem running_or_halted (s : State) : s.run = .running ∨ s.run = .halted := by
  cases s.run <;> simp

/-- A step under any other output trace. -/
theorem step_with_out (o : List Byte) (h : step s = .next t) :
    step { s with out := o } = .next { t with out := o ++ s.stepOutput.toList } := by
  rcases running_or_halted s with hr | hr
  · by_cases hm : s.fetch.opcode ∈ opcodeBytes
    · obtain ⟨i, hi⟩ := decode_ok_of_mem hm
      rw [step_of_decode hr hi] at h
      rw [stepOutput_of_decode hr hi, ← exec_with_out o h]
      exact step_of_decode (s := { s with out := o }) hr hi
    · rw [step_of_unknown hr hm] at h
      cases h
      rw [stepOutput_of_unknown hr hm, Option.toList_none, List.append_nil]
      exact step_of_unknown (s := { s with out := o }) hr hm
  · rw [step_of_halted hr] at h
    cases h
    rw [stepOutput_of_halted hr, Option.toList_none, List.append_nil]
    exact step_of_halted (s := { s with out := o }) hr

/-- The trace grows by the byte at the output port: the case of `step_with_out` where the trace is the state's own. -/
theorem step_out (h : step s = .next t) : t.out = s.out ++ s.stepOutput.toList := by
  have hs : step s = .next { t with out := s.out ++ s.stepOutput.toList } := step_with_out s.out h
  rw [h] at hs
  injection hs with ht
  exact congrArg State.out ht

theorem outputsOf_ne_none (h : outputsOf i s ≠ none) : i.opcode = opPrn := by
  cases i <;> simp only [outputsOf, ne_eq, not_true_eq_false] at h
  rfl

theorem stepOutput_ne_none (h : s.stepOutput ≠ none) : s.run = .running ∧ (s.readByte s.pc).toNat = 0x43 := by
  rcases running_or_halted s with hr | hr
  · by_cases hm : s.fetch.opcode ∈ opcodeBytes
    · obtain ⟨i, hi⟩ := decode_ok_of_mem hm
      rw [stepOutput_of_decode hr hi] at h
      rw [← fetch_opcode, opcode_of_decode hi, outputsOf_ne_none h]
      exact ⟨hr, rfl⟩
    · exact absurd (stepOutput_of_unknown hr hm) h
  · exact absurd (stepOutput_of_halted hr) h

/-- Settles O34. -/
theorem onlyPrnWritesTheOutputTrace : Obligations.OnlyPrnWritesTheOutputTrace :=
  ⟨fun _ _ => step_out, fun _ => stepOutput_ne_none, fun _ _ o => step_with_out o⟩

end Sys2Proof
end

section
/-!
PROOFS of the family 20_memory.md: the accesses of a step, reading and writing, the memory at power-on, when the host may load.
-/

namespace Sys2Proof

open Machine

variable {i : Instr} {s t : State}

/-! ### The accesses of an instruction -/

theorem ifRegByte_of_names {b : Byte} {r : RegIdx} {k : RegIdx → List Access} (h : b.toNat = r.val) :
    ifRegByte b k = k r := by
  rw [ifRegByte, regIndex_eq_some.mpr h]

theorem ifRegByte_of_bad {b : Byte} {k : RegIdx → List Access} (h : 7 < b.toNat) : ifRegByte b k = [] := by
  rw [ifRegByte, regIndex_eq_none.mpr h]

theorem ifRegByte_cases (b : Byte) (k : RegIdx → List Access) : ifRegByte b k = [] ∨ ∃ r, ifRegByte b k = k r := by
  rcases names_or_bad b with ⟨r, hr⟩ | hb
  · exact .inr ⟨r, ifRegByte_of_names hr⟩
  · exact .inl (ifRegByte_of_bad hb)

theorem accessesOf_of_not_wf (h : i.wf = false) : accessesOf i s = [] := by
  cases i <;> simp only [accessesOf]
  case push | pop | call => exact ifRegByte_of_bad (isRegByte_eq_false.mp h)
  case ret => cases h

/-- R65's table: after the fetch an instruction makes no access, one read, or, PUSH and CALL only, one write. -/
theorem accessesOf_cases (i : Instr) (s : State) :
    accessesOf i s = [] ∨ (∃ a, accessesOf i s = [s.readAccess a]) ∨
    ((i.opcode = opPush ∨ i.opcode = opCall) ∧ ∃ a d, accessesOf i s = [.write a d]) := by
  cases i
  case push opA =>
    rcases ifRegByte_cases opA fun r => [.write s.decSp.sp (s.decSp.reg r)] with h | ⟨r, h⟩
    · exact .inl h
    · exact .inr (.inr ⟨.inl rfl, _, _, h⟩)
  case pop opA =>
    rcases ifRegByte_cases opA fun _ => [s.readAccess s.sp] with h | ⟨-, h⟩
    · exact .inl h
    · exact .inr (.inl ⟨_, h⟩)
  case call opA =>
    rcases ifRegByte_cases opA fun _ => [.write s.decSp.sp s.returnAddress] with h | ⟨-, h⟩
    · exact .inl h
    · exact .inr (.inr ⟨.inr rfl, _, _, h⟩)
  case ret => exact .inr (.inl ⟨_, rfl⟩)
  all_goals exact .inl rfl

/-- An instruction's effect on memory is the writes among its accesses. -/
theorem effect_mem (h : Effect i s t) : t.mem = s.mem.afterAccesses (accessesOf i s) := by
  cases i <;> simp only [Effect] at h <;> simp only [accessesOf]
  case push =>
    obtain ⟨r, hr, rfl⟩ := h
    rw [ifRegByte_of_names hr, State.decSp_sp, State.decSp_reg]
    rfl
  case call =>
    obtain ⟨r, hr, rfl⟩ := h
    rw [ifRegByte_of_names hr, State.decSp_sp, State.returnAddress_eq]
    rfl
  case pop =>
    obtain ⟨r, hr, rfl⟩ := h
    rw [ifRegByte_of_names hr]
    rfl
  case hlt | ret => subst h; rfl
  case mul | add | cmp => obtain ⟨_, _, _, _, rfl⟩ := h; rfl
  all_goals obtain ⟨_, _, rfl⟩ := h; rfl

/-! ### The accesses of a step -/

theorem fetchAccesses_eq (s : State) :
    s.fetchAccesses = [s.readAccess s.pc, s.readAccess (s.pc + 1#8), s.readAccess (s.pc + 2#8)] := by
  rw [State.fetchAccesses, wrap_add_one, wrap_add_two]

/-- Fetching leaves memory alone (R61). -/
theorem afterAccesses_fetch_append (s : State) (m : Memory) (l : List Access) :
    m.afterAccesses (s.fetchAccesses ++ l) = m.afterAccesses l := rfl

theorem stepAccesses_of_halted (h : s.run = .halted) : s.stepAccesses = [] := by
  simp [State.stepAccesses, h]

theorem stepAccesses_of_decode (hr : s.run = .running) (hd : decode s.fetch = .ok i) :
    s.stepAccesses = s.fetchAccesses ++ accessesOf i s := by
  simp [State.stepAccesses, hr, hd]

theorem stepAccesses_of_unknown (hr : s.run = .running) (h : s.fetch.opcode ∉ opcodeBytes) :
    s.stepAccesses = s.fetchAccesses := by
  simp [State.stepAccesses, hr, decode_error_of_notMem h]

/-- All a RUNNING step can show at the memory port: the fetch and then nothing, one read, or one write of PUSH or CALL. -/
theorem stepAccesses_cases (hr : s.run = .running) :
    ∃ rest, s.stepAccesses = s.fetchAccesses ++ rest ∧
      (rest = [] ∨ (∃ a, rest = [s.readAccess a]) ∨
        ((s.readByte s.pc = opPush ∨ s.readByte s.pc = opCall) ∧ ∃ a d, rest = [.write a d])) := by
  by_cases hm : s.fetch.opcode ∈ opcodeBytes
  · obtain ⟨i, hi⟩ := decode_ok_of_mem hm
    rw [← fetch_opcode, opcode_of_decode hi]
    exact ⟨_, stepAccesses_of_decode hr hi, accessesOf_cases i s⟩
  · exact ⟨[], by rw [stepAccesses_of_unknown hr hm, List.append_nil], .inl rfl⟩

theorem stepAccesses_take_three (hr : s.run = .running) : s.stepAccesses.take 3 = s.fetchAccesses := by
  obtain ⟨rest, h, -⟩ := stepAccesses_cases hr
  rw [h]
  exact List.take_left (l₁ := s.fetchAccesses)

theorem stepAccesses_length_le (hr : s.run = .running) : s.stepAccesses.length ≤ 4 := by
  obtain ⟨_, h, rfl | ⟨_, rfl⟩ | ⟨-, _, _, rfl⟩⟩ := stepAccesses_cases hr <;> rw [h, fetchAccesses_eq] <;> simp

/-- Every access of a step is a truthful read, or a write by PUSH or CALL. -/
theorem mem_stepAccesses {x : Access} (hx : x ∈ s.stepAccesses) :
    (∃ a, x = s.readAccess a) ∨
    ((s.readByte s.pc = opPush ∨ s.readByte s.pc = opCall) ∧ ∃ a d, x = .write a d) := by
  rcases running_or_halted s with hr | hr
  · obtain ⟨rest, h, hrest⟩ := stepAccesses_cases hr
    rw [h, List.mem_append] at hx
    rcases hx with hx | hx
    · simp only [fetchAccesses_eq, List.mem_cons, List.not_mem_nil, or_false] at hx
      rcases hx with hx | hx | hx <;> exact .inl ⟨_, hx⟩
    · rcases hrest with rfl | ⟨a, rfl⟩ | ⟨ho, a, d, rfl⟩
      · cases hx
      · exact .inl ⟨a, List.mem_singleton.mp hx⟩
      · exact .inr ⟨ho, a, d, List.mem_singleton.mp hx⟩
  · rw [stepAccesses_of_halted hr] at hx
    cases hx

theorem eq_readByte_of_read_mem {a d : Byte} (h : Access.read a d ∈ s.stepAccesses) : d = s.readByte a := by
  rcases mem_stepAccesses h with ⟨a', hx⟩ | ⟨-, _, _, hx⟩ <;> cases hx
  rfl

theorem opcode_of_write_mem {a d : Byte} (h : Access.write a d ∈ s.stepAccesses) :
    s.readByte s.pc = opPush ∨ s.readByte s.pc = opCall := by
  rcases mem_stepAccesses h with ⟨_, hx⟩ | ⟨ho, -⟩
  · cases hx
  · exact ho

/-- Memory changes by the accesses of the step and by nothing else (R69). -/
theorem step_mem (h : step s = .next t) : t.mem = s.mem.afterAccesses s.stepAccesses := by
  rcases step_eq_next h with ⟨hr, rfl⟩ | ⟨hr, hm, rfl⟩ | ⟨hr, i, hi, hw, rfl⟩ | ⟨hr, i, hi, -, he⟩
  · rw [stepAccesses_of_halted hr]
    rfl
  · rw [stepAccesses_of_unknown hr hm]
    rfl
  · rw [stepAccesses_of_decode hr hi, accessesOf_of_not_wf hw]
    rfl
  · rw [stepAccesses_of_decode hr hi, afterAccesses_fetch_append, effect_mem he]

/-- Settles O35. -/
theorem memoryFollowsTheAccesses : Obligations.MemoryFollowsTheAccesses :=
  ⟨fun s hr => ⟨(stepAccesses_take_three hr).trans (fetchAccesses_eq s), stepAccesses_length_le hr⟩,
    fun _ _ _ => eq_readByte_of_read_mem,
    fun _ _ _ h => (opcode_of_write_mem h).imp (congrArg BitVec.toNat) (congrArg BitVec.toNat),
    fun _ _ => step_mem⟩

/-! ### Reading and writing memory -/

theorem wrap_eq_wrap {v v' : Int} : wrap v = wrap v' ↔ v % 256 = v' % 256 := by
  rw [← BitVec.toNat_inj, wrap_toNat, wrap_toNat]
  omega

/-- Addresses count modulo 256. -/
theorem memRead_congr (s : State) {addr addr' : Int} (h : addr' % 256 = addr % 256) :
    s.memRead addr' = s.memRead addr := by
  rw [State.memRead, wrap_eq_wrap.mpr h, State.memRead]

theorem memRead_memWrite_ne (s : State) {addr addr' : Int} (v : Byte) (h : addr' % 256 ≠ addr % 256) :
    (s.memWrite addr v).memRead addr' = s.memRead addr' :=
  State.memWrite_readByte_ne s v (mt wrap_eq_wrap.mp h)

/-- Settles O39. -/
theorem memoryReadsWhatWasWritten : Obligations.MemoryReadsWhatWasWritten := fun s addr v hw =>
  ⟨State.memWrite_readByte_self s addr v hw, fun _ => memRead_memWrite_ne s v, Memory.wf_write (wrap addr) v hw,
    fun _ => memRead_congr s, fun _ hm hr => Memory.eq_of_read_eq hm hw hr⟩

/-! ### The memory at power-on -/

theorem powerOn_readByte (memInit : Byte → Byte) (a : Byte) : (State.powerOn memInit).readByte a = memInit a := by
  rw [State.readByte, powerOn_mem, Memory.read_ofImage]

/-- Power-on is the reset state but for memory. -/
theorem powerOn_eq (memInit : Byte → Byte) :
    State.powerOn memInit = { State.reset with mem := (State.powerOn memInit).mem } := by
  rw [powerOn_mem, State.powerOn]

theorem wf_powerOn_mem (memInit : Byte → Byte) : (State.powerOn memInit).mem.wf = true := by
  rw [powerOn_mem, Memory.wf_ofImage]

/-- A canonical memory is the memory of the machine powered on with the image it reads as. -/
theorem powerOn_read_mem {m : Memory} (h : m.wf = true) : (State.powerOn m.read).mem = m :=
  Memory.eq_of_read_eq (wf_powerOn_mem _) h (powerOn_readByte _)

/-- Settles O42. -/
theorem powerOnMemoryIsMemInit : Obligations.PowerOnMemoryIsMemInit :=
  ⟨fun memInit => ⟨powerOn_readByte memInit, wf_powerOn_mem memInit, powerOn_eq memInit⟩,
    fun m hm => ⟨m.read, powerOn_read_mem hm⟩⟩

/-! ### When the host may load -/

section
variable {c c' : Session} {a b : Byte}

theorem stepped_of_request_step (h : c.request .step = some c') : c'.stepped = true := by
  obtain ⟨t, ht⟩ := step_completes c.machine
  simp only [Session.request, ht, Option.some.injEq] at h
  rw [← h]

theorem request_load_of_stepped (h : c.stepped = true) : c.request (.load a b) = none := by
  simp [Session.request, h]

theorem requests_reset_load (c : Session) (a b : Byte) :
    c.requests [.reset, .load a b] = some { machine := c.machine.hostReset.load a b, stepped := false } := rfl

end

/-- Settles O44. -/
theorem loadOnlyBeforeStepping : Obligations.LoadOnlyBeforeStepping := fun _ c' a b h =>
  ⟨request_load_of_stepped (stepped_of_request_step h), _, requests_reset_load c' a b, rfl⟩

end Sys2Proof
end

section
/-!
PROOFS of the family 30_encoding.md: decoding and encoding, the instruction's length, the unused operand bytes, the opcode table.
-/

namespace Sys2Proof

open Machine

/-! ### Encoded bytes as fetched bytes -/

/-- A fetch takes three bytes, so up to three leading bytes are all fetched, whatever follows them. -/
theorem prefix_bytes_ofBytes (pad : List Byte) : ∀ {bs : List Byte}, bs.length ≤ 3 →
    bs <+: (Fetched.ofBytes (bs ++ pad)).bytes
  | [], _ => List.nil_prefix
  | [_], _ => ⟨_, rfl⟩
  | [_, _], _ => ⟨_, rfl⟩
  | [_, _, _], _ => ⟨[], rfl⟩
  | _ :: _ :: _ :: _ :: _, h => absurd h (by simp)

/-- The three formats of R90. -/
theorem encode_length_cases (i : Instr) :
    (encode i).length = 1 ∨ (encode i).length = 2 ∨ (encode i).length = 3 := by
  cases i
  case hlt | ret => exact .inl rfl
  case ldi | mul | add | cmp => exact .inr (.inr rfl)
  all_goals exact .inr (.inl rfl)

theorem decode_ofBytes_encode (i : Instr) (pad : List Byte) : decode (Fetched.ofBytes (encode i ++ pad)) = .ok i := by
  have hlen := encode_length_cases i
  exact decode_of_prefix (prefix_bytes_ofBytes pad (by omega))

/-- Settles O1, by the decoder's inversion in both directions. -/
theorem decodeAndEncodeAgree : Obligations.DecodeAndEncodeAgree :=
  ⟨decode_ofBytes_encode, fun _ _ => decode_eq_ok.mp⟩

/-! ### Unknown opcodes -/

theorem decode_unknown_iff (f : Fetched) :
    decode f = .error (.unknownOpcode f.opcode) ↔ unknownOpcodeByte f.opcode.toNat = true := by
  rw [decode_eq_error, unknownOpcodeByte_iff]
  exact and_iff_left rfl

/-- The bytes outside R96's ranges are R94's, each once. -/
theorem filter_not_unknown_perm :
    ((List.range 256).filter fun n => !unknownOpcodeByte n).Perm (opcodeBytes.map BitVec.toNat) := by
  have hcell (b : Byte) : (!unknownOpcodeByte b.toNat) = true ↔ b ∈ opcodeBytes := by
    rw [Bool.not_eq_true', ← Bool.not_eq_true, unknownOpcodeByte_iff, not_not]
  refine (List.perm_ext_iff_of_nodup (List.nodup_range.filter _) (by decide)).mpr fun n => ?_
  rw [List.mem_filter, List.mem_range, List.mem_map]
  constructor
  · rintro ⟨hn, hu⟩
    have hb : (BitVec.ofNat 8 n).toNat = n := by rw [BitVec.toNat_ofNat, Nat.mod_eq_of_lt hn]
    exact ⟨BitVec.ofNat 8 n, (hcell _).mp (by rwa [hb]), hb⟩
  · rintro ⟨b, hb, rfl⟩
    exact ⟨b.isLt, (hcell b).mpr hb⟩

/-- 256 bytes less the 13 of R94. -/
theorem unknownOpcodeByte_count : ((List.range 256).filter unknownOpcodeByte).length = 243 := by
  have hsum := (List.range 256).length_eq_length_filter_add unknownOpcodeByte
  have hknown : ((List.range 256).filter fun n => !unknownOpcodeByte n).length = 13 := filter_not_unknown_perm.length_eq
  rw [List.length_range] at hsum
  omega

theorem step_of_unknownOpcodeByte {s : State} (hr : s.run = .running)
    (h : unknownOpcodeByte (s.readByte s.pc).toNat = true) :
    step s = .next (fatalState s .unknownOpcode (s.readByte s.pc)) := by
  rw [unknownOpcodeByte_iff, ← fetch_opcode] at h
  rw [step_of_unknown hr h, fetch_opcode, raise_eq_fatalState]

/-- Settles O3: R96's ranges are the complement of R94's 13 bytes, and the step takes fatal entry there. -/
theorem unknownOpcodeHaltsUnchanged : Obligations.UnknownOpcodeHaltsUnchanged :=
  ⟨decode_unknown_iff, unknownOpcodeByte_count, fun _ => step_of_unknownOpcodeByte⟩

/-! ### The length -/

theorem encode_length_of_decode {f : Fetched} {i : Instr} (h : decode f = .ok i) :
    (encode i).length = 1 + operandCount f.opcode := by
  rw [encode_length, opcode_of_decode h]

/-- Settles O4: the auto-advance uses the field that gives the length, and the sum does not wrap. -/
theorem lengthIsInTheOpcode : Obligations.LengthIsInTheOpcode := by
  intro f i h
  have hlen := encode_length_of_decode h
  refine ⟨by rw [hlen, operandCount_eq_div], encode_length_cases i, fun s hs => ?_⟩
  rw [State.advance_pc_toNat, ← hlen, Nat.mod_eq_of_lt hs]

/-! ### The unused operand bytes -/

/-- R92's addresses, given as numbers modulo 256, are the byte sums of the fetch. -/
theorem eq_add_ofNat_of_toNat {a b : Byte} {n : Nat} (h : a.toNat = (b.toNat + n) % 256) : a = b + BitVec.ofNat 8 n := by
  apply BitVec.eq_of_toNat_eq
  rw [h, BitVec.toNat_add, BitVec.toNat_ofNat, Nat.add_mod_mod]

/-- The first `n` fetched bytes are the same when the opcodes are and the operands among them are. -/
theorem take_bytes_congr {f g : Fetched} (ho : f.opcode = g.opcode) : ∀ {n : Nat}, (2 ≤ n → f.opA = g.opA) →
    (3 ≤ n → f.opB = g.opB) → f.bytes.take n = g.bytes.take n
  | 0, _, _ => rfl
  | 1, _, _ => by simp [Fetched.bytes, ho]
  | 2, hA, _ => by simp [Fetched.bytes, ho, hA]
  | n + 3, hA, hB => by simp [Fetched.bytes, ho, hA, hB]

/-- Only the operands that the opcode's two high bits count play a part in decoding (R92). -/
theorem decode_congr {f g : Fetched} (ho : f.opcode = g.opcode) (hA : 1 ≤ operandCount f.opcode → f.opA = g.opA)
    (hB : 2 ≤ operandCount f.opcode → f.opB = g.opB) : decode f = decode g := by
  by_cases hm : f.opcode ∈ opcodeBytes
  · obtain ⟨i, hi⟩ := decode_ok_of_mem hm
    have hlen := encode_length_of_decode hi
    have hbytes : f.bytes.take (encode i).length = g.bytes.take (encode i).length :=
      take_bytes_congr ho (fun h => hA (by omega)) (fun h => hB (by omega))
    have hg : decode g = .ok i := by
      rw [decode_eq_ok, List.prefix_iff_eq_take] at hi ⊢
      exact hi.trans hbytes
    rw [hi, hg]
  · rw [decode_error_of_notMem hm, decode_error_of_notMem (ho ▸ hm), ho]

/-- Settles O6: the fetch reads by byte sums, and decoding looks only at the operands counted by the opcode. -/
theorem unusedOperandBytesDoNotMatter : Obligations.UnusedOperandBytesDoNotMatter := by
  constructor
  · intro s a
    rw [State.fetch_eq]
    exact ⟨rfl, fun h => by rw [eq_add_ofNat_of_toNat h], fun h => by rw [eq_add_ofNat_of_toNat h]⟩
  · intro f g ho hA hB
    rw [← operandCount_eq_div] at hA hB
    exact decode_congr ho hA hB

/-! ### The opcode table -/

theorem isRegByte_iff_le {b : Byte} : isRegByte b = true ↔ b.toNat ≤ 7 := by
  rw [isRegByte, decide_eq_true_eq, Config.nreg, Nat.lt_succ_iff]

theorem isRegByte_and_iff_le {a b : Byte} : (isRegByte a && isRegByte b) = true ↔ a.toNat ≤ 7 ∧ b.toNat ≤ 7 := by
  rw [Bool.and_eq_true, isRegByte_iff_le, isRegByte_iff_le]

/-- R94's column of bytes in hexadecimal, with the operands each format puts after them. -/
theorem encode_row (a b : Byte) :
    encode (.ldi a b) = [0x99#8, a, b] ∧ encode (.prn a) = [0x43#8, a] ∧ encode .hlt = [0x01#8] ∧
    encode (.mul a b) = [0xAA#8, a, b] ∧ encode (.add a b) = [0xA8#8, a, b] ∧ encode (.cmp a b) = [0xA0#8, a, b] ∧
    encode (.jmp a) = [0x50#8, a] ∧ encode (.jeq a) = [0x51#8, a] ∧ encode (.jne a) = [0x52#8, a] ∧
    encode (.push a) = [0x4D#8, a] ∧ encode (.pop a) = [0x4C#8, a] ∧ encode (.call a) = [0x48#8, a] ∧
    encode .ret = [0x09#8] :=
  ⟨rfl, rfl, rfl, rfl, rfl, rfl, rfl, rfl, rfl, rfl, rfl, rfl, rfl⟩

/-- Settles O2: the decoder's rows, the encoder's rows, and the check of one or two register indices by the kinds of R93. -/
theorem opcodeTableRows : Obligations.OpcodeTableRows := fun a b =>
  have one : isRegByte a = true ↔ a.toNat ≤ 7 := isRegByte_iff_le
  have two : (isRegByte a && isRegByte b) = true ↔ a.toNat ≤ 7 ∧ b.toNat ≤ 7 := isRegByte_and_iff_le
  ⟨decode_row a b, encode_row a b, ⟨rfl, rfl⟩, ⟨one, one, one, one, one, one, one, one⟩, two, two, two⟩

/-- Settles O5: the decoder is run on each of the eleven words. -/
theorem sampleWordsDecode : Obligations.SampleWordsDecode := by
  unfold Obligations.SampleWordsDecode
  decide

end Sys2Proof
end

section
/-!
PROOFS of the family 40_instruction_cycle.md: what a step runs, the fatal entry of a bad register index, the auto-advance, loading
a program, `run()`, and the host's sessions.
-/

namespace Sys2Proof

open Machine

variable {i : Instr} {s t : State}

/-! ### What a step runs -/

/-- Settles O7: the three bytes are those of the fetch unit. -/
theorem stepRunsTheDecodedInstruction : Obligations.StepRunsTheDecodedInstruction := by
  intro s i hr hd
  rw [← State.fetch_eq] at hd
  exact step_of_decode hr hd

/-- Settles O9. -/
theorem haltedStepDoesNothing : Obligations.HaltedStepDoesNothing := fun _ h =>
  ⟨step_of_halted h, stepAccesses_of_halted h, stepOutput_of_halted h⟩

theorem step_unique {u : State} (ht : step s = .next t) (hu : step s = .next u) : u = t :=
  Host.Outcome.next.inj (hu.symm.trans ht)

/-- Settles O10: every step completes, and `step` is a function. -/
theorem stepIsTotalAndDeterministic : Obligations.StepIsTotalAndDeterministic := by
  refine ⟨fun s => ?_, exec_completes⟩
  obtain ⟨t, ht⟩ := step_completes s
  exact ⟨t, ht, fun _ => step_unique ht⟩

/-! ### A word placed at `pc` -/

@[simp] theorem withFetchWord_pc (s : State) (nbits w : Nat) : (s.withFetchWord nbits w).pc = s.pc := rfl

@[simp] theorem withFetchWord_run (s : State) (nbits w : Nat) : (s.withFetchWord nbits w).run = s.run := rfl

theorem withFetchWord_mem (s : State) (nbits w : Nat) : (s.withFetchWord nbits w).mem =
    ((s.mem.write s.pc (tableByte nbits w 0)).write (s.pc + 1#8) (tableByte nbits w 1)).write (s.pc + 2#8)
      (tableByte nbits w 2) := by
  simp only [State.withFetchWord, State.memWrite_mem, wrap_byte, wrap_add_one, wrap_add_two]

/-- The three addresses of a fetch are three, also across address 255, so no later byte overwrites an earlier one. -/
theorem fetch_addresses_ne (a : Byte) : a ≠ a + 1#8 ∧ a ≠ a + 2#8 ∧ a + 1#8 ≠ a + 2#8 := by
  refine ⟨?_, ?_, ?_⟩ <;> bv_omega

/-- What was placed is what the fetch unit reads. -/
theorem fetch_withFetchWord (hw : s.mem.wf = true) (nbits w : Nat) :
    (s.withFetchWord nbits w).fetch = tableFetched nbits w := by
  obtain ⟨h01, h02, h12⟩ := fetch_addresses_ne s.pc
  have hw0 := Memory.wf_write s.pc (tableByte nbits w 0) hw
  have hw1 := Memory.wf_write (s.pc + 1#8) (tableByte nbits w 1) hw0
  simp only [State.fetch_eq, State.readByte, withFetchWord_pc, withFetchWord_mem, tableFetched]
  rw [Memory.read_write_ne _ _ h02, Memory.read_write_ne _ _ h01, Memory.read_write_self _ _ hw,
    Memory.read_write_ne _ _ h12, Memory.read_write_self _ _ hw0, Memory.read_write_self _ _ hw1]

/-- Settles O8: the placed word is fetched and decoded. -/
theorem placedWordIsRunNext : Obligations.PlacedWordIsRunNext := by
  intro s nbits w i hw hr hd
  rw [decodeTableWord_eq_some, ← fetch_withFetchWord hw] at hd
  exact step_of_decode (by rw [withFetchWord_run, hr]) hd

/-! ### The fatal entry of a bad register index -/

theorem isRegByte_and_eq_false {a b : Byte} : (isRegByte a && isRegByte b) = false ↔ 7 < a.toNat ∨ 7 < b.toNat := by
  rw [Bool.and_eq_false_iff, isRegByte_eq_false, isRegByte_eq_false]

/-- Settles O14: the forms with one register index, then those with two. -/
theorem badRegisterIndexIsFatal : Obligations.BadRegisterIndexIsFatal := by
  intro s a b
  constructor
  · intro h
    have one : isRegByte a = false := isRegByte_eq_false.mpr h
    exact ⟨exec_of_not_wf (i := .ldi a b) one, exec_of_not_wf (i := .prn a) one, exec_of_not_wf (i := .jmp a) one,
      exec_of_not_wf (i := .jeq a) one, exec_of_not_wf (i := .jne a) one, exec_of_not_wf (i := .push a) one,
      exec_of_not_wf (i := .pop a) one, exec_of_not_wf (i := .call a) one⟩
  · intro h
    have two : (isRegByte a && isRegByte b) = false := isRegByte_and_eq_false.mpr h
    exact ⟨exec_of_not_wf (i := .mul a b) two, exec_of_not_wf (i := .add a b) two, exec_of_not_wf (i := .cmp a b) two⟩

/-! ### The auto-advance -/

/-- R127's five: the instruction writes `pc` itself, JEQ and JNE when they are taken from a state whose E flag is `e`. -/
def SetsPc (i : Instr) (e : Bool) : Prop :=
  (∃ a, i = .jmp a) ∨ (∃ a, i = .jeq a ∧ e = true) ∨ (∃ a, i = .jne a ∧ e = false) ∨ (∃ a, i = .call a) ∨ i = .ret

/-- An instruction that does not write `pc` moves it on by its own length. -/
theorem effect_pc (h : Effect i s t) : SetsPc i s.flags.e ∨ t.pc = s.pc + BitVec.ofNat 8 (encode i).length := by
  cases i <;> simp only [Effect] at h
  case jmp a => exact .inl (.inl ⟨a, rfl⟩)
  case jeq a =>
    obtain ⟨_, _, rfl⟩ := h
    cases he : s.flags.e
    · exact .inr rfl
    · exact .inl (.inr (.inl ⟨a, rfl, rfl⟩))
  case jne a =>
    obtain ⟨_, _, rfl⟩ := h
    cases he : s.flags.e
    · exact .inl (.inr (.inr (.inl ⟨a, rfl, rfl⟩)))
    · exact .inr rfl
  case call a => exact .inl (.inr (.inr (.inr (.inl ⟨a, rfl⟩))))
  case ret => exact .inl (.inr (.inr (.inr (.inr rfl))))
  case hlt => subst h; exact .inr rfl
  case mul | add | cmp => obtain ⟨_, _, _, _, rfl⟩ := h; exact .inr rfl
  all_goals obtain ⟨_, _, rfl⟩ := h; exact .inr rfl

/-- Settles O33. -/
theorem autoAdvanceUnlessPcIsSet : Obligations.AutoAdvanceUnlessPcIsSet := by
  intro i s t hw h
  rcases exec_eq_next h with ⟨hbad, -⟩ | ⟨-, he⟩
  · simp [hw] at hbad
  · refine (effect_pc he).imp_right fun hpc => ?_
    rw [hpc, encode_length, operandCount_eq_div, BitVec.toNat_add, BitVec.toNat_ofNat, Nat.add_mod_mod, Nat.add_assoc]

/-! ### Loading a program -/

theorem load_readByte_self (hw : s.mem.wf = true) (a b : Byte) : (s.load a b).readByte a = b := by
  rw [State.load, memWrite_byte]
  exact Memory.read_write_self a b hw

theorem load_readByte_ne {a a' : Byte} (b : Byte) (h : a' ≠ a) : (s.load a b).readByte a' = s.readByte a' := by
  rw [State.load, memWrite_byte]
  exact Memory.read_write_ne s.mem b h

theorem wf_load_mem (hw : s.mem.wf = true) (a b : Byte) : (s.load a b).mem.wf = true :=
  Memory.wf_write _ _ hw

theorem loadFrom_cons (s : State) (n : Nat) (b : Byte) (rest : List Byte) :
    s.loadFrom (BitVec.ofNat 8 n) (b :: rest) =
      (s.load (BitVec.ofNat 8 n) b).loadFrom (BitVec.ofNat 8 (n + 1)) rest := by
  rw [State.loadFrom, wrap_add_one, BitVec.ofNat_add]

/-- Loading is memory writes and nothing else (R132). -/
theorem loadFrom_eq (s : State) (addr : Byte) (p : List Byte) :
    s.loadFrom addr p = { s with mem := (s.loadFrom addr p).mem } := by
  induction p generalizing s addr with
  | nil => rfl
  | cons b rest ih =>
    rw [State.loadFrom, ih]
    rfl

/-- A program that fits above `n` leaves every address outside its own as it was. -/
theorem loadFrom_readByte_of_outside {n : Nat} {p : List Byte} {a : Byte} (hfit : n + p.length ≤ 256)
    (ha : a.toNat < n ∨ n + p.length ≤ a.toNat) : (s.loadFrom (BitVec.ofNat 8 n) p).readByte a = s.readByte a := by
  induction p generalizing s n with
  | nil => rfl
  | cons b rest ih =>
    rw [List.length_cons] at hfit ha
    have hne : a ≠ BitVec.ofNat 8 n := by
      rintro rfl
      rw [BitVec.toNat_ofNat] at ha
      omega
    rw [loadFrom_cons, ih (by omega) (by omega), load_readByte_ne b hne]

/-- Byte `k` of a program that fits above `n` ends at `n + k`: the bytes loaded after it go to higher addresses. -/
theorem loadFrom_readByte {n k : Nat} {p : List Byte} (hw : s.mem.wf = true) (hfit : n + p.length ≤ 256)
    (hk : k < p.length) : (s.loadFrom (BitVec.ofNat 8 n) p).readByte (BitVec.ofNat 8 (n + k)) = p[k] := by
  induction p generalizing s n k with
  | nil => cases hk
  | cons b rest ih =>
    rw [List.length_cons] at hfit hk
    rw [loadFrom_cons]
    cases k with
    | zero =>
      have hbelow : (BitVec.ofNat 8 n).toNat < n + 1 := by rw [BitVec.toNat_ofNat]; omega
      have hkept := loadFrom_readByte_of_outside (s := s.load (BitVec.ofNat 8 n) b) (p := rest) (by omega) (.inl hbelow)
      exact hkept.trans (load_readByte_self hw _ b)
    | succ k =>
      have := ih (wf_load_mem hw (BitVec.ofNat 8 n) b) (n := n + 1) (k := k) (by omega) (by omega)
      rwa [Nat.succ_add_eq_add_succ] at this

/-- Settles O43: `LOAD_BASE` is 0. -/
theorem loadInstallsTheProgram : Obligations.LoadInstallsTheProgram := by
  intro s p hw
  constructor
  · intro hlen
    have hfit : 0 + p.length ≤ 256 := by omega
    refine ⟨s.loadFrom (BitVec.ofNat 8 0) p, if_pos hlen, fun k hk => ?_, fun a ha => ?_, loadFrom_eq ..⟩
    · simpa only [Nat.zero_add] using loadFrom_readByte hw hfit hk
    · exact loadFrom_readByte_of_outside hfit (.inr (by omega))
  · intro hlen
    exact if_neg (Nat.not_le.mpr hlen)

/-! ### `run()` -/

theorem core_run_of_halted (h : s.run = .halted) (n : Nat) : core.run n s = .next s := by
  induction n with
  | zero => rfl
  | succ n ih => rw [core_run_succ n (step_of_halted h), ih]

theorem runFor_of_halted (h : s.run = .halted) (n : Nat) : runFor n s = .next s := by
  cases n <;> simp [runFor, h]

theorem runFor_succ (hr : s.run = .running) (h : step s = .next t) (n : Nat) : runFor (n + 1) s = runFor n t := by
  simp [runFor, hr, h]

theorem runFor_eq_core_run (n : Nat) (s : State) : runFor n s = core.run n s := by
  induction n generalizing s with
  | zero => rfl
  | succ n ih =>
    rcases running_or_halted s with hr | hr
    · obtain ⟨t, ht⟩ := step_completes s
      rw [runFor_succ hr ht, core_run_succ n ht, ih]
    · exact (runFor_of_halted hr _).trans (core_run_of_halted hr _).symm

/-- A RUNNING state that steps to itself runs for ever. -/
theorem runFor_of_fixed (hr : s.run = .running) (h : step s = .next s) (n : Nat) : runFor n s = .next s := by
  induction n with
  | zero => rfl
  | succ n ih => rw [runFor_succ hr h, ih]

/-- `JMP R0` at address 0, with R0 = 0: a jump to itself. -/
def selfJump : State := { State.reset with mem := [(0, opJmp)] }

theorem step_selfJump : step selfJump = .next selfJump := rfl

/-- Settles O45: by induction on the fuel, and by a program that jumps to itself. -/
theorem runIsRepeatedStep : Obligations.RunIsRepeatedStep :=
  ⟨runFor_eq_core_run, selfJump, rfl, fun n => ⟨selfJump, runFor_of_fixed rfl step_selfJump n, rfl⟩⟩

/-! ### The host's sessions -/

/-- What every request keeps: the machine's invariant, and that the machine is RUNNING as long as the host may load. -/
structure SessionInv (c : Session) : Prop where
  machine : Inv c.machine
  runningUntilStepped : c.stepped = false → c.machine.run = .running

/-- A load keeps the invariant while RUNNING, when no report names a byte that the load could change. -/
theorem inv_load (hs : Inv s) (hr : s.run = .running) (a b : Byte) : Inv (s.load a b) where
  memWf := wf_load_mem hs.memWf a b
  causeOfRun := hs.causeOfRun
  aluOpKnown := hs.aluOpKnown
  flagsExclusive := hs.flagsExclusive
  diagZero := hs.diagZero
  diagReport := by
    have hc : (s.load a b).haltCause = .none := hs.causeOfRun.mpr hr
    simp [hc, IsFatalCause]

section
variable {c c' d : Session} {a b : Byte}

theorem request_load_eq_some (h : c.request (.load a b) = some c') :
    c.stepped = false ∧ c' = { c with machine := c.machine.load a b } := by
  cases hst : c.stepped
  · simp only [Session.request, hst, Bool.false_eq_true, if_false, Option.some.injEq] at h
    exact ⟨rfl, h.symm⟩
  · rw [request_load_of_stepped hst] at h
    cases h

theorem request_step_eq_some (h : c.request .step = some c') :
    ∃ t, step c.machine = .next t ∧ c' = { machine := t, stepped := true } := by
  obtain ⟨t, ht⟩ := step_completes c.machine
  simp only [Session.request, ht, Option.some.injEq] at h
  exact ⟨t, ht, h.symm⟩

theorem requests_cons_eq_some {q : HostRequest} {qs : List HostRequest} (h : c.requests (q :: qs) = some d) :
    ∃ c', c.request q = some c' ∧ c'.requests qs = some d := by
  rw [Session.requests] at h
  cases hq : c.request q with
  | none => simp [hq] at h
  | some c' => exact ⟨c', rfl, by simpa [hq] using h⟩

theorem request_keeps_sessionInv {q : HostRequest} (hc : SessionInv c) (h : c.request q = some c') : SessionInv c' := by
  cases q with
  | reset =>
    cases h
    exact ⟨inv_hostReset hc.machine.memWf, fun _ => rfl⟩
  | load a b =>
    obtain ⟨hst, rfl⟩ := request_load_eq_some h
    have hr := hc.runningUntilStepped hst
    exact ⟨inv_load hc.machine hr a b, fun _ => hr⟩
  | step =>
    obtain ⟨t, ht, rfl⟩ := request_step_eq_some h
    exact ⟨stepKeepsTheInvariant _ t hc.machine ht, fun hst => nomatch hst⟩

theorem requests_keep_sessionInv {qs : List HostRequest} (hc : SessionInv c) (h : c.requests qs = some d) :
    SessionInv d := by
  induction qs generalizing c with
  | nil =>
    cases h
    exact hc
  | cons q qs ih =>
    obtain ⟨c', hq, hqs⟩ := requests_cons_eq_some h
    exact ih (request_keeps_sessionInv hc hq) hqs

end

theorem hostReset_powerOn (memInit : Byte → Byte) : (State.powerOn memInit).hostReset = State.powerOn memInit := by
  rw [State.hostReset, powerOn_mem, State.powerOn]

theorem inv_powerOn (memInit : Byte → Byte) : Inv (State.powerOn memInit) :=
  hostReset_powerOn memInit ▸ inv_hostReset (wf_powerOn_mem memInit)

theorem sessionInv_start (memInit : Byte → Byte) : SessionInv (Session.start memInit) :=
  ⟨inv_powerOn memInit, fun _ => rfl⟩

/-- Settles O48, by induction on the requests. -/
theorem everySessionMeetsTheInvariant : Obligations.EverySessionMeetsTheInvariant := fun memInit _ _ h =>
  (requests_keep_sessionInv (sessionInv_start memInit) h).machine

/-! ### How a run ended -/

/-- The causes a HALTED machine can show. -/
theorem haltCause_of_halted (hs : Inv s) (hr : s.run = .halted) :
    s.haltCause = .hlt ∨ s.haltCause = .unknownOpcode ∨ s.haltCause = .badRegIndex := by
  cases hc : s.haltCause with
  | none => simp [hs.causeOfRun.mp hc] at hr
  | unknownAluOp => exact absurd hc hs.aluOpKnown
  | hlt => exact .inl rfl
  | unknownOpcode => exact .inr (.inl rfl)
  | badRegIndex => exact .inr (.inr rfl)

theorem not_haltedFatally_of_haltedNormally (h : HaltedNormally s) : ¬ HaltedFatally s := by
  rintro ⟨-, hf⟩
  simp [h.2, IsFatalCause] at hf

theorem statusPorts_haltCause (s : State) : s.statusPorts.haltCause = s.haltCause.code := rfl

/-- Settles O49: HLT is the normal end, the two causes left are fatal. -/
theorem everyHaltHasOneCause : Obligations.EveryHaltHasOneCause := by
  intro s hs hr
  rw [statusPorts_haltCause]
  rcases haltCause_of_halted hs hr with hc | hc | hc
  · have hn : HaltedNormally s := ⟨hr, hc⟩
    exact .inl ⟨hn, not_haltedFatally_of_haltedNormally hn, by rw [hc]; rfl⟩
  · have hf : HaltedFatally s := ⟨hr, .inl hc⟩
    exact .inr ⟨hf, fun hn => not_haltedFatally_of_haltedNormally hn hf, .inl (by rw [hc]; rfl)⟩
  · have hf : HaltedFatally s := ⟨hr, .inr (.inr hc)⟩
    exact .inr ⟨hf, fun hn => not_haltedFatally_of_haltedNormally hn hf, .inr (by rw [hc]; rfl)⟩

end Sys2Proof
end

section
/-!
PROOFS of the family 41_ldi_prn.md: LDI and PRN, each with its result and its frame. The laws of the frame terms serve every
instruction's statement.
-/

namespace Sys2Proof

open Machine

variable {s t : State} {a : Byte} {r : RegIdx}

/-! ### The frame terms, from the next state's parts -/

theorem reg_of_regs_set_self {v : Byte} (h : t.regs = s.regs.set r v) : t.reg r = v := by
  rw [State.reg, h, RegFile.get_set_self]

theorem regsKept_of_regs (h : t.regs = s.regs) (but : List RegIdx) : RegsKept s t but := fun r _ => by
  rw [State.reg, h, State.reg]

theorem memKept_of_mem (h : t.mem = s.mem) : MemKept s t := fun a => by
  rw [State.readByte, h, State.readByte]

/-- An addition of bytes is modulo 256 (D2). -/
theorem pcMoved_of_pc {n : Nat} (h : t.pc = s.pc + BitVec.ofNat 8 n) : PcMoved s t n := by
  rw [PcMoved, h, BitVec.toNat_add, BitVec.toNat_ofNat, Nat.add_mod_mod]

/-! ### The two instructions -/

theorem exec_ldi (ha : Names a r) (v : Byte) (s : State) :
    exec (.ldi a v) s = .next { s with regs := s.regs.set r v, pc := s.pc + 3#8 } :=
  exec_of_effect ⟨r, ha, rfl⟩

theorem exec_prn (ha : Names a r) (s : State) :
    exec (.prn a) s = .next { s with out := s.out ++ [s.reg r], pc := s.pc + 2#8 } :=
  exec_of_effect ⟨r, ha, rfl⟩

/-- Settles O17: LDI writes one register and `pc`. -/
theorem ldiLoadsTheImmediate : Obligations.LdiLoadsTheImmediate := fun s _ v _ ha =>
  ⟨_, exec_ldi ha v s, reg_of_regs_set_self rfl, regsKept_of_regs_set rfl, rfl, pcMoved_of_pc rfl, memKept_of_mem rfl, rfl,
    rfl, rfl, rfl, rfl⟩

/-- Settles O18: PRN appends to the output trace and writes `pc`. -/
theorem prnEmitsTheRegister : Obligations.PrnEmitsTheRegister := fun s _ _ ha =>
  ⟨_, exec_prn ha s, rfl, regsKept_of_regs rfl [], rfl, pcMoved_of_pc rfl, memKept_of_mem rfl, rfl, rfl, rfl, rfl⟩

end Sys2Proof
end

section
/-!
PROOFS of the family 42_hlt.md: HLT, its result and its frame.
-/

namespace Sys2Proof

open Machine

theorem exec_hlt (s : State) : exec .hlt s = .next { s with run := .halted, haltCause := .hlt, pc := s.pc + 1#8 } :=
  exec_of_effect rfl

/-- Settles O19: HLT writes `run`, `halt_cause` and `pc`. -/
theorem hltHalts : Obligations.HltHalts := fun s =>
  ⟨_, exec_hlt s, rfl, rfl, rfl, rfl, regsKept_of_regs rfl [], rfl, pcMoved_of_pc rfl, memKept_of_mem rfl, rfl⟩

end Sys2Proof
end

section
/-!
PROOFS of the family 43_alu.md: MUL, ADD and CMP, each with its result and its frame, and the ALU's error, which none of the
three reaches.
-/

namespace Sys2Proof

open Machine

variable {s t : State} {a b : Byte} {ra rb : RegIdx}

/-! ### The ALU's error -/

/-- The three selects in use leave one of the four over (D19). -/
theorem alu_eq_err_iff (op : BitVec 2) (va vb : Byte) : alu op va vb = .err ↔ op = 3#2 := by
  have hsel : ∀ op : BitVec 2, (op ≠ aluAdd ∧ op ≠ aluMul ∧ op ≠ aluCmp) ↔ op = 3#2 := by decide
  exact alu_eq_err.trans (hsel op)

theorem aluCommit_err (opcode : Byte) (r : RegIdx) (s : State) :
    aluCommit opcode r s .err = fatalState s .unknownAluOp opcode := by
  rw [aluCommit, raise_eq_fatalState]

/-- The causes an instruction can end with: BAD_REG_INDEX, HLT, or the one it began with. -/
theorem exec_haltCause {i : Instr} (h : exec i s = .next t) :
    t.haltCause = .badRegIndex ∨ t.haltCause = .hlt ∨ t.haltCause = s.haltCause := by
  rcases exec_eq_next h with ⟨-, rfl⟩ | ⟨-, he⟩
  · exact .inl rfl
  · obtain ⟨⟨-, -, hc⟩ | ⟨-, hc⟩, -, -⟩ := effect_control he
    · exact .inr (.inl hc)
    · exact .inr (.inr hc)

theorem exec_haltCause_ne_unknownAluOp {i : Instr} (hs : s.haltCause ≠ .unknownAluOp) (h : exec i s = .next t) :
    t.haltCause ≠ .unknownAluOp := by
  rcases exec_haltCause h with hc | hc | hc
  · simp [hc]
  · simp [hc]
  · rwa [hc]

/-- Settles O16: the selects by enumeration, the fatal entry by its definition, the rest by the inversion of `exec`. -/
theorem unknownAluOperationIsFatalAndUnreachable : Obligations.UnknownAluOperationIsFatalAndUnreachable :=
  ⟨alu_eq_err_iff, aluCommit_err, fun _ _ _ => exec_haltCause_ne_unknownAluOp⟩

/-! ### CMP -/

theorem compareFlags_e (va vb : Byte) : (compareFlags va vb).e = true ↔ va.toNat = vb.toNat := decide_eq_true_iff

theorem compareFlags_l (va vb : Byte) : (compareFlags va vb).l = true ↔ va.toNat < vb.toNat := decide_eq_true_iff

theorem compareFlags_g (va vb : Byte) : (compareFlags va vb).g = true ↔ vb.toNat < va.toNat := decide_eq_true_iff

theorem exec_cmp (ha : Names a ra) (hb : Names b rb) (s : State) :
    exec (.cmp a b) s = .next { s with flags := compareFlags (s.reg ra) (s.reg rb), pc := s.pc + 3#8 } :=
  exec_of_effect ⟨ra, rb, ha, hb, rfl⟩

/-- Settles O22: CMP writes the comparison's flags and `pc`, and of two numbers exactly one order holds. -/
theorem cmpSetsExactlyOneFlag : Obligations.CmpSetsExactlyOneFlag := fun s _ _ ra rb ha hb =>
  have hself : ra = rb → (compareFlags (s.reg ra) (s.reg rb)).e = true := fun h => (compareFlags_e _ _).mpr (by rw [h])
  ⟨_, exec_cmp ha hb s, compareFlags_e _ _, compareFlags_l _ _, compareFlags_g _ _, compareFlags_exclusive _ _, hself,
    regsKept_of_regs rfl [], pcMoved_of_pc rfl, memKept_of_mem rfl, rfl, rfl, rfl, rfl, rfl⟩

/-! ### MUL and ADD -/

theorem exec_mul (ha : Names a ra) (hb : Names b rb) (s : State) :
    exec (.mul a b) s = .next { s with regs := s.regs.set ra (s.reg ra * s.reg rb), pc := s.pc + 3#8 } :=
  exec_of_effect ⟨ra, rb, ha, hb, rfl⟩

theorem exec_add (ha : Names a ra) (hb : Names b rb) (s : State) :
    exec (.add a b) s = .next { s with regs := s.regs.set ra (s.reg ra + s.reg rb), pc := s.pc + 3#8 } :=
  exec_of_effect ⟨ra, rb, ha, hb, rfl⟩

/-- Result and frame of an instruction of three bytes that writes one register and `pc`. -/
theorem result_and_frame_of_exec {i : Instr} {v : Byte} {n : Nat}
    (h : exec i s = .next { s with regs := s.regs.set ra v, pc := s.pc + 3#8 }) (hv : v.toNat = n) :
    ∃ t, exec i s = .next t ∧ (t.reg ra).toNat = n ∧ RegsKept s t [ra] ∧ t.flags = s.flags ∧ PcMoved s t 3 ∧
      MemKept s t ∧ t.out = s.out ∧ ControlKept s t :=
  ⟨_, h, by rw [reg_of_regs_set_self rfl, hv], regsKept_of_regs_set rfl, rfl, pcMoved_of_pc rfl, memKept_of_mem rfl, rfl,
    rfl, rfl, rfl, rfl⟩

/-- Settles O20: a product of bytes is modulo 256. -/
theorem mulMultipliesModulo256 : Obligations.MulMultipliesModulo256 := fun s _ _ _ _ ha hb =>
  result_and_frame_of_exec (exec_mul ha hb s) (BitVec.toNat_mul _ _)

/-- Settles O21: a sum of bytes is modulo 256. -/
theorem addAddsModulo256 : Obligations.AddAddsModulo256 := fun s _ _ _ _ ha hb =>
  result_and_frame_of_exec (exec_add ha hb s) (BitVec.toNat_add _ _)

end Sys2Proof
end

section
/-!
PROOFS of the family 44_jumps.md: JMP, JEQ and JNE. A jump is a write to `pc`, so the frame is one lemma for the three.
-/

namespace Sys2Proof

open Machine

/-! ### What a write to `pc` leaves unchanged -/

theorem kept_of_pc_write (s : State) (p : Byte) :
    RegsKept s { s with pc := p } [] ∧ { s with pc := p }.flags = s.flags ∧ MemKept s { s with pc := p } ∧
      { s with pc := p }.out = s.out ∧ ControlKept s { s with pc := p } :=
  ⟨regsKept_of_regs rfl [], rfl, memKept_of_mem rfl, rfl, rfl, rfl, rfl, rfl⟩

/-! ### The jumps -/

theorem exec_jmp {a : Byte} {r : RegIdx} (ha : Names a r) (s : State) :
    exec (.jmp a) s = .next { s with pc := s.reg r } :=
  exec_of_effect ⟨r, ha, rfl⟩

/-- Settles O23: JMP writes `pc` alone. -/
theorem jmpGoesToTheRegister : Obligations.JmpGoesToTheRegister := fun s _ _ ha =>
  ⟨_, exec_jmp ha s, rfl, kept_of_pc_write s _⟩

/-- Settles O24: both jumps write `pc` alone, and E picks which of the two goes to the register. -/
theorem conditionalJumpsFollowE : Obligations.ConditionalJumpsFollowE := by
  intro s a r ha
  obtain ⟨hregs, hflags, hmem, hout, hcontrol⟩ := kept_of_pc_write s (if s.flags.e then s.reg r else s.pc + 2#8)
  refine ⟨_, _, exec_jeq ha s, exec_jne ha s, fun hE => ?_, fun hE => ?_, hregs, hflags, hmem, hout, hcontrol,
    kept_of_pc_write s _⟩
  · exact ⟨if_pos hE, pcMoved_of_pc (if_pos hE)⟩
  · have hE' : ¬ s.flags.e = true := by simp [hE]
    exact ⟨pcMoved_of_pc (if_neg hE'), if_neg hE'⟩

end Sys2Proof
end

section
/-!
PROOFS of the family 45_stack.md: PUSH and POP, each with its result and its frame, and the balance of the two (R202).
-/

namespace Sys2Proof

open Machine

variable {s : State} {a : Byte} {r : RegIdx}

/-! ### PUSH -/

/-- The byte a PUSH of register `r` stores: for SP itself the decremented one (D8). -/
def pushedByte (s : State) (r : RegIdx) : Byte := if r = Config.spIdx then s.sp - 1#8 else s.reg r

/-- The state after a PUSH of register `r`; `exec_push` ties it to the model. -/
def afterPush (s : State) (r : RegIdx) : State :=
  { s with
    regs := s.regs.set Config.spIdx (s.sp - 1#8)
    mem := s.mem.write (s.sp - 1#8) (pushedByte s r)
    pc := s.pc + 2#8 }

theorem exec_push (ha : Names a r) (s : State) : exec (.push a) s = .next (afterPush s r) :=
  exec_of_effect ⟨r, ha, rfl⟩

@[simp] theorem afterPush_sp (s : State) (r : RegIdx) : (afterPush s r).sp = s.sp - 1#8 := sp_of_regs_set rfl

theorem regsKept_afterPush (s : State) (r : RegIdx) : RegsKept s (afterPush s r) [Config.spIdx] :=
  regsKept_of_regs_set rfl

theorem afterPush_readByte_self (hw : s.mem.wf = true) (r : RegIdx) :
    (afterPush s r).readByte (s.sp - 1#8) = pushedByte s r :=
  Memory.read_write_self _ _ hw

theorem memKeptBut_afterPush (s : State) (r : RegIdx) : MemKeptBut s (afterPush s r) (s.sp - 1#8) := fun _ =>
  Memory.read_write_ne _ _

theorem controlKept_afterPush (s : State) (r : RegIdx) : ControlKept s (afterPush s r) := ⟨rfl, rfl, rfl, rfl⟩

/-- A decrement of a byte is modulo 256 (D2). -/
theorem sub_one_toNat (b : Byte) : (b - 1#8).toNat = (b.toNat + 255) % 256 := by
  rw [BitVec.toNat_sub, Nat.add_comm]; rfl

/-- Settles O25: PUSH writes SP, one byte of memory and `pc`, and the address is SP's new value. -/
theorem pushStoresAtTheDecrementedSp : Obligations.PushStoresAtTheDecrementedSp := by
  intro s a r hw ha
  refine ⟨afterPush s r, exec_push ha s, ?_, regsKept_afterPush s r, rfl, pcMoved_of_pc rfl, rfl, controlKept_afterPush s r⟩
  rintro _ rfl
  rw [State.decSp_sp]
  exact ⟨sub_one_toNat _, afterPush_sp s r, afterPush_readByte_self hw r, memKeptBut_afterPush s r⟩

/-! ### POP -/

/-- The state after a POP of register `r`: the load, then the increment of SP as the load left it (D8); `exec_pop` ties it to
the model. -/
def afterPop (s : State) (r : RegIdx) : State :=
  { s with
    regs := (s.regs.set r (s.readByte s.sp)).set Config.spIdx
      ((if r = Config.spIdx then s.readByte s.sp else s.sp) + 1#8)
    pc := s.pc + 2#8 }

theorem exec_pop (ha : Names a r) (s : State) : exec (.pop a) s = .next (afterPop s r) :=
  exec_of_effect ⟨r, ha, rfl⟩

theorem afterPop_sp_of_eq (h : r = Config.spIdx) (s : State) : (afterPop s r).sp = s.readByte s.sp + 1#8 := by
  rw [sp_of_regs_set (s := afterPop s r) rfl, if_pos h]

theorem afterPop_sp_of_ne (h : r ≠ Config.spIdx) (s : State) : (afterPop s r).sp = s.sp + 1#8 := by
  rw [sp_of_regs_set (s := afterPop s r) rfl, if_neg h]

theorem afterPop_reg_ne {r' : RegIdx} (h : r' ≠ Config.spIdx) (s : State) (r : RegIdx) :
    (afterPop s r).reg r' = if r' = r then s.readByte s.sp else s.reg r' :=
  (RegFile.get_set_ne _ _ h).trans (RegFile.get_set ..)

theorem regsKept_afterPop (s : State) (r : RegIdx) : RegsKept s (afterPop s r) [r, Config.spIdx] := by
  intro r' hr'
  simp only [List.mem_cons, List.not_mem_nil, or_false, not_or] at hr'
  obtain ⟨hne, hsp⟩ := hr'
  rw [afterPop_reg_ne hsp, if_neg hne]

theorem memKept_afterPop (s : State) (r : RegIdx) : MemKept s (afterPop s r) := memKept_of_mem rfl

theorem controlKept_afterPop (s : State) (r : RegIdx) : ControlKept s (afterPop s r) := ⟨rfl, rfl, rfl, rfl⟩

/-- Settles O26: POP writes the register and SP, or SP twice, and `pc`. -/
theorem popLoadsFromSp : Obligations.PopLoadsFromSp := by
  intro s a r ha
  refine ⟨afterPop s r, exec_pop ha s, fun hr => ⟨?_, ?_⟩, fun hr => ?_, regsKept_afterPop s r, rfl, pcMoved_of_pc rfl,
    memKept_afterPop s r, rfl, controlKept_afterPop s r⟩
  · rw [afterPop_reg_ne hr, if_pos rfl]
  · rw [afterPop_sp_of_ne hr]
    exact BitVec.toNat_add _ _
  · rw [afterPop_sp_of_eq hr]
    exact BitVec.toNat_add _ _

/-! ### The balance of the two -/

theorem step_push (hr : s.run = .running) (ha : Names a r) (hop : s.readByte s.pc = 0x4D#8)
    (hA : s.readByte (s.pc + 1#8) = a) : step s = .next (afterPush s r) := by
  rw [stepRunsTheDecodedInstruction s (.push a) hr (by rw [hop, hA]; rfl), exec_push ha]

theorem step_pop (hr : s.run = .running) (ha : Names a r) (hop : s.readByte s.pc = 0x4C#8)
    (hA : s.readByte (s.pc + 1#8) = a) : step s = .next (afterPop s r) := by
  rw [stepRunsTheDecodedInstruction s (.pop a) hr (by rw [hop, hA]; rfl), exec_pop ha]

/-- POP loads the byte PUSH stored. -/
theorem afterPush_readByte_sp (hw : s.mem.wf = true) (r : RegIdx) :
    (afterPush s r).readByte (afterPush s r).sp = pushedByte s r := by
  rw [afterPush_sp, afterPush_readByte_self hw]

/-- SP is back: for `r` = SP as the byte loaded, which is the decremented SP, plus 1; else by the increment alone. -/
theorem afterPop_afterPush_sp (hw : s.mem.wf = true) (r : RegIdx) : (afterPop (afterPush s r) r).sp = s.sp := by
  by_cases h : r = Config.spIdx
  · rw [afterPop_sp_of_eq h, afterPush_readByte_sp hw, pushedByte, if_pos h, BitVec.sub_add_cancel]
  · rw [afterPop_sp_of_ne h, afterPush_sp, BitVec.sub_add_cancel]

theorem regsKept_afterPop_afterPush (hw : s.mem.wf = true) (r : RegIdx) :
    RegsKept s (afterPop (afterPush s r) r) [] := by
  intro r' _
  by_cases hsp : r' = Config.spIdx
  · subst hsp
    exact afterPop_afterPush_sp hw r
  · rw [afterPop_reg_ne hsp]
    split
    · next h => rw [afterPush_readByte_sp hw, pushedByte, ← h, if_neg hsp]
    · exact regsKept_afterPush s r r' (by simpa using hsp)

/-- Settles O36: the POP is fetched from bytes the PUSH kept, and undoes what the PUSH did to the registers. -/
theorem pushThenPopBalances : Obligations.PushThenPopBalances := by
  intro s b r hw hr hb hpush hpushA hpop hpopA hne2 hne3
  have hkept := memKeptBut_afterPush s r
  have hpop' : (afterPush s r).readByte (s.pc + 2#8) = 0x4C#8 := by rw [hkept _ hne2.symm, hpop]
  have hpopA' : (afterPush s r).readByte (s.pc + 2#8 + 1#8) = b := by
    have hpc : s.pc + 2#8 + 1#8 = s.pc + 3#8 := BitVec.add_assoc ..
    rw [hpc, hkept _ hne3.symm, hpopA]
  exact ⟨afterPush s r, afterPop (afterPush s r) r, step_push hr hb hpush hpushA, step_pop hr hb hpop' hpopA',
    regsKept_afterPop_afterPush hw r, rfl, pcMoved_of_pc (BitVec.add_assoc ..), afterPush_readByte_self hw r, hkept, rfl,
    rfl, rfl, rfl, rfl⟩

end Sys2Proof
end

section
/-!
PROOFS of the family 46_call_ret.md: CALL and RET, each with its result and its frame, and the two as a pair: with RET as it is
(R212) and with the labelled alternative (R214).
-/

namespace Sys2Proof

open Machine

variable {s t : State} {a : Byte} {r : RegIdx}

/-! ### CALL -/

/-- The state after a CALL of register `r`, whose target is read after the decrement (D8); `exec_call` ties it to the model. -/
def afterCall (s : State) (r : RegIdx) : State :=
  { s with
    regs := s.regs.set Config.spIdx (s.sp - 1#8)
    mem := s.mem.write (s.sp - 1#8) (s.pc + 2#8)
    pc := if r = Config.spIdx then s.sp - 1#8 else s.reg r }

theorem exec_call (ha : Names a r) (s : State) : exec (.call a) s = .next (afterCall s r) :=
  exec_of_effect ⟨r, ha, rfl⟩

theorem eq_afterCall_of_exec (ha : Names a r) (h : exec (.call a) s = .next t) : t = afterCall s r := by
  rw [exec_call ha] at h
  cases h
  rfl

@[simp] theorem afterCall_sp (s : State) (r : RegIdx) : (afterCall s r).sp = s.sp - 1#8 := sp_of_regs_set rfl

theorem regsKept_afterCall (s : State) (r : RegIdx) : RegsKept s (afterCall s r) [Config.spIdx] :=
  regsKept_of_regs_set rfl

theorem afterCall_readByte_self (hw : s.mem.wf = true) (r : RegIdx) :
    (afterCall s r).readByte (s.sp - 1#8) = s.pc + 2#8 :=
  Memory.read_write_self _ _ hw

theorem memKeptBut_afterCall (s : State) (r : RegIdx) : MemKeptBut s (afterCall s r) (s.sp - 1#8) := fun _ =>
  Memory.read_write_ne _ _

theorem controlKept_afterCall (s : State) (r : RegIdx) : ControlKept s (afterCall s r) := ⟨rfl, rfl, rfl, rfl⟩

/-- The return address is modulo 256 (D2). -/
theorem add_two_toNat (b : Byte) : (b + 2#8).toNat = (b.toNat + 2) % 256 := BitVec.toNat_add _ _

/-- Settles O27: CALL writes SP, one byte of memory and `pc`, and the address is SP's new value. -/
theorem callPushesTheReturnAddress : Obligations.CallPushesTheReturnAddress := by
  intro s a r hw ha
  refine ⟨afterCall s r, exec_call ha s, ?_, regsKept_afterCall s r, rfl, rfl, controlKept_afterCall s r⟩
  rintro _ rfl
  rw [State.decSp_sp, afterCall_readByte_self hw]
  exact ⟨sub_one_toNat _, afterCall_sp s r, add_two_toNat _, memKeptBut_afterCall s r, rfl⟩

/-! ### RET -/

theorem exec_ret (s : State) : exec .ret s = .next { s with pc := s.readByte s.sp } := exec_of_effect rfl

/-- Settles O28: RET writes `pc` alone, from the one byte it reads. -/
theorem retDoesNotPop : Obligations.RetDoesNotPop := by
  refine ⟨fun a b => ?_, rfl, fun s => ?_⟩
  · exact decode_of_prefix (i := .ret) (f := ⟨0x09#8, a, b⟩) ⟨[a, b], rfl⟩
  · obtain ⟨hregs, hflags, hmem, hout, hcontrol⟩ := kept_of_pc_write s (s.readByte s.sp)
    exact ⟨_, exec_ret s, rfl, rfl, hregs, hflags, hmem, hout, hcontrol, rfl⟩

/-- Settles O37: RET reads the return address where the CALL stored it, and keeps the SP the CALL decremented. -/
theorem retResumesAfterCall : Obligations.RetResumesAfterCall := by
  intro s t u a r hw ha hcall hsp hbyte
  obtain rfl := eq_afterCall_of_exec ha hcall
  rw [afterCall_sp] at hsp hbyte
  refine ⟨_, exec_ret u, ?_, ?_⟩
  · rw [hbyte, afterCall_readByte_self hw, add_two_toNat]
  · calc u.sp.toNat
      _ = (s.sp - 1#8).toNat := by rw [hsp]
      _ = (s.sp.toNat + 255) % 256 := sub_one_toNat _

/-! ### The labelled alternative RET -/

@[simp] theorem returnWith_true_pc (s : State) : (returnWith true s).pc = s.readByte s.sp := by
  rw [returnWith, if_pos rfl, State.memRead_byte, setPc_byte, State.incSp_pc]

@[simp] theorem returnWith_true_sp (s : State) : (returnWith true s).sp = s.sp + 1#8 := by
  rw [returnWith, if_pos rfl, State.incSp_sp, State.setPc_sp]

/-- The increment undoes the CALL's decrement, and the byte read is the return address. -/
theorem returnWith_true_afterCall (hw : s.mem.wf = true) (r : RegIdx) :
    (returnWith true (afterCall s r)).sp = s.sp ∧ (returnWith true (afterCall s r)).pc = s.pc + 2#8 := by
  rw [returnWith_true_sp, returnWith_true_pc, afterCall_sp]
  exact ⟨BitVec.sub_add_cancel _ _, afterCall_readByte_self hw r⟩

/-- Settles O29: the parameter is false, and a return with the other value balances a CALL. -/
theorem alternativeRetWouldPop : Obligations.AlternativeRetWouldPop := by
  refine ⟨rfl, fun _ => rfl, fun s => ⟨returnWith_true_pc s, ?_⟩, ?_⟩
  · rw [returnWith_true_sp]
    exact BitVec.toNat_add _ _
  · intro s t a r hw ha hcall
    obtain rfl := eq_afterCall_of_exec ha hcall
    obtain ⟨hsp, hpc⟩ := returnWith_true_afterCall hw r
    exact ⟨hsp, by rw [hpc, add_two_toNat]⟩

end Sys2Proof
end

section
/-!
PROOFS of the family 60_exceptions.md: HALTED as the end of a run, what a fatal step leaves, and which fatal condition it takes.
-/

namespace Sys2Proof

open Machine

variable {i : Instr} {s t : State}

/-! ### HALTED and the way out -/

/-- A reset keeps nothing of the block, so what it answers is a matter of the memory alone (R250, R252). -/
theorem hostReset_congr (h : t.mem = s.mem) : t.hostReset = s.hostReset := by
  rw [State.hostReset, State.hostReset, h]

/-- Settles O11: both forms of running stay at a HALTED state, and a reset reads only the memory. -/
theorem haltedIsTerminal : Obligations.HaltedIsTerminal := fun s =>
  ⟨fun h n => ⟨core_run_of_halted h n, runFor_of_halted h n⟩, State.hostReset_run s, fun _ => hostReset_congr⟩

/-! ### Fatal steps -/

/-- An instruction's effect is no fatal condition: the cause it leaves is HLT or the one before it. -/
theorem effect_not_isFatalCause (hc : s.haltCause = .none) (h : Effect i s t) : ¬ IsFatalCause t.haltCause := by
  obtain ⟨⟨-, -, hcause⟩ | ⟨-, hcause⟩, -, -⟩ := effect_control h
  · simp [hcause, IsFatalCause]
  · simp [hcause, hc, IsFatalCause]

/-- A byte that decodes is none of R96's. -/
theorem not_unknownOpcodeByte_of_decode (hd : decode s.fetch = .ok i) :
    ¬ unknownOpcodeByte (s.readByte s.pc).toNat = true := by
  rw [unknownOpcodeByte_iff, not_not, ← fetch_opcode, opcode_of_decode hd]
  exact opcode_mem i

/-- What a RUNNING step does as to fatal conditions, in R225's order: UNKNOWN_OPCODE, else BAD_REG_INDEX, else none. Each
fatal entry reports the byte at `pc`. -/
theorem step_fatal_cases (hr : s.run = .running) (hc : s.haltCause = .none) (h : step s = .next t) :
    (unknownOpcodeByte (s.readByte s.pc).toNat = true ∧ t = fatalState s .unknownOpcode (s.readByte s.pc)) ∨
    (∃ i, decode s.fetch = .ok i ∧ ¬ i.WellFormed ∧ t = fatalState s .badRegIndex (s.readByte s.pc)) ∨
    (∃ i, decode s.fetch = .ok i ∧ i.WellFormed ∧ ¬ IsFatalCause t.haltCause) := by
  rcases step_eq_next h with ⟨hh, -⟩ | ⟨-, hm, rfl⟩ | ⟨-, i, hd, hw, rfl⟩ | ⟨-, i, hd, hw, he⟩
  · simp [hr] at hh
  · rw [fetch_opcode] at hm ⊢
    exact .inl ⟨(unknownOpcodeByte_iff _).mpr hm, raise_eq_fatalState ..⟩
  · rw [← opcode_of_decode hd, fetch_opcode]
    exact .inr (.inl ⟨i, hd, by simp [hw], raise_eq_fatalState ..⟩)
  · exact .inr (.inr ⟨i, hd, hw, effect_not_isFatalCause hc he⟩)

/-- Settles O13: both fatal entries leave exactly the reported state, and nothing else ends with a fatal cause. -/
theorem fatalStepChangesOnlyTheReport : Obligations.FatalStepChangesOnlyTheReport := by
  intro s t hr hc h hfatal
  rcases step_fatal_cases hr hc h with ⟨-, rfl⟩ | ⟨-, -, -, rfl⟩ | ⟨-, -, -, hnot⟩
  · rfl
  · rfl
  · exact absurd hfatal hnot

/-- Settles O15: the three cases of a RUNNING step exclude each other, because a byte that decodes
is not unknown and the decoded instruction is unique. -/
theorem fatalConditionsInPriorityOrder : Obligations.FatalConditionsInPriorityOrder := by
  intro s t hr hc h
  rcases step_fatal_cases hr hc h with ⟨hu, rfl⟩ | ⟨i, hd, hbad, rfl⟩ | ⟨i, hd, hw, hnot⟩
  · refine ⟨iff_of_true rfl hu, iff_of_false (by simp [fatalState]) ?_⟩
    rintro ⟨i, hd, -⟩
    exact not_unknownOpcodeByte_of_decode hd hu
  · exact ⟨iff_of_false (by simp [fatalState]) (not_unknownOpcodeByte_of_decode hd), iff_of_true rfl ⟨i, hd, hbad⟩⟩
  · refine ⟨iff_of_false (mt .inl hnot) (not_unknownOpcodeByte_of_decode hd),
      iff_of_false (mt (.inr ∘ .inr) hnot) ?_⟩
    rintro ⟨j, hj, hbad⟩
    cases hd.symm.trans hj
    exact hbad hw

end Sys2Proof
end

section
/-!
PROOFS of the family 70_reset_and_hazards.md: reset and memory.
-/

namespace Sys2Proof

open Machine

/-- A reset takes nothing but memory from the state it is requested in, so another memory before it is that memory after it. -/
theorem hostReset_withMem (s : State) (m : Memory) :
    { s with mem := m }.hostReset = { s.hostReset with mem := m } := by
  rw [State.hostReset, State.hostReset]

/-- Settles O41: memory is the one item a reset keeps (the write side), and it goes nowhere else (the read side). -/
theorem resetLeavesMemoryAlone : Obligations.ResetLeavesMemoryAlone := fun s m =>
  ⟨State.hostReset_mem s, hostReset_withMem s m⟩

end Sys2Proof
end
